-- ==== Sys2Proof/Word.lean ====
section
/-! DEFINITION. The word types of the block (00_scope.md section 5.1: every value is an unsigned number; 10_state.md
R20: the widths). -/

namespace Sys2Proof

/-- A byte on the bus: 8 bits, bit 7 most significant (00_scope.md section 5.1). -/
abbrev Byte := BitVec 8

/-- The event word `W` of 30_encoding.md R80: `W[10:8] = ev`, `W[7:0] = din`. -/
abbrev EventWord := BitVec 11

/-- A register address: 8 bits (20_memory.md R50). -/
abbrev RegAddr := BitVec 8

/-- The SPI engine's 6-bit register address (10_state.md R30, 20_memory.md R50). -/
abbrev SpiAddr := BitVec 6

/-- The widest register value, 24 bits. A register of width `w` bytes holds a value below `2^(8*w)`
(10_state.md R21): that bound is `RegFile.wf`, not a type. -/
abbrev RegValue := BitVec 24

end Sys2Proof
end

