-- ==== Sys2Proof/Config.lean ====
section
/-! DEFINITION. What is fixed for one instance of the block (00_scope.md R5 to R7), the two enumerations of the engines'
state (10_state.md R28, R29), and the model's one free value. -/

namespace Sys2Proof

/-- Which engine an instance contains (00_scope.md R5). -/
inductive Bus where
  | i2c
  | spi
  deriving DecidableEq, Repr

/-- The access mode of a register (00_scope.md R6, 10_state.md R23). -/
inductive Access where
  | ro
  | rw
  deriving DecidableEq, Repr

/-- The byte order of a register (20_memory.md R53). `be` is the spec's own extension, D18. -/
inductive ByteOrder where
  | le
  | be
  deriving DecidableEq, Repr

/-- One row of the register map: `d = (addr, width, access, reset, order)` of 00_scope.md R6. `width` is in bytes. -/
structure Descriptor where
  addr   : RegAddr
  width  : Nat
  access : Access
  reset  : Nat
  order  : ByteOrder := .le
  deriving DecidableEq, Repr

/-- The reset value as a register value (00_scope.md R6: `reset < 2^(8*width)`). -/
def Descriptor.resetValue (d : Descriptor) : RegValue := BitVec.ofNat 24 d.reset

/-- `MAP`, the register map (00_scope.md R6). `RegMap.wf` says which lists are one. -/
abbrev RegMap := List Descriptor

/-- The three values of the open parameter `SPI_ADDR_WRAP` (00_scope.md R7, 92_eei_decisions.md D17). -/
inductive AddrWrap where
  | refuse
  | wrap0
  | any
  deriving DecidableEq, Repr

/-- The named constants that 00_scope.md R7 makes configuration fields, with R7's defaults. R7 leaves
`SPI_ADDR_WRAP` OPEN; the default `any` is the model's (DESIGN CHOICE, log entry 3). -/
structure Params where
  i2cFiller    : Byte := 0xFF#8
  ptrReset     : RegAddr := 0x00#8
  spiAddrReset : SpiAddr := 0x00#6
  spiAddrWrap  : AddrWrap := .any
  deriving DecidableEq, Repr

/-- The I2C engine's `phase` (10_state.md R28). -/
inductive Phase where
  | idle
  | addressing
  | writing
  | reading
  deriving DecidableEq, Repr

/-- The SPI engine's `mode` (10_state.md R29). -/
inductive Mode where
  | standby
  | read
  | multiRead
  | write
  deriving DecidableEq, Repr

/-- FREE VALUE (log entry 3). What `address` holds after a multi-read continuation at address 63 when
`SPI_ADDR_WRAP = any`: 42_spi_engine.md R194 allows any 6-bit value. The argument is the number of earlier draws. -/
opaque Config.freeAddress : Nat → SpiAddr

/-- `BUS` of the instance that `State.reset` constructs. DESIGN CHOICE, log entry 1. -/
def Config.defaultBus : Bus := .i2c

/-- `MAP` of the instance that `State.reset` constructs: the three registers of the source's own scenario,
95_test_vectors.md `MAP_S` (E7, D21). DESIGN CHOICE, log entry 1. -/
def Config.defaultMap : RegMap :=
  [ { addr := 0x00#8, width := 1, access := .ro, reset := 0x07 },
    { addr := 0x07#8, width := 1, access := .rw, reset := 0x00 },
    { addr := 0x0A#8, width := 1, access := .rw, reset := 0xA0 } ]

end Sys2Proof
end

