-- ==== Sys2Proof/Syntax.lean ====
section
/-! DEFINITION. The instructions: one constructor per row of opcode_table.json, in the table's order. They are bus events
together with the byte they carry, told apart by the engine state (30_encoding.md R88). -/

namespace Sys2Proof

inductive Instr where
  /-- I2C.START.SEND, 41_i2c_engine.md R141. -/
  | i2cStartSend
  /-- I2C.START.RECV, R142. -/
  | i2cStartRecv
  /-- I2C.WBYTE.PTR, R143: format I2C-PTR (30_encoding.md R83). -/
  | i2cWbytePtr (ptr : Byte)
  /-- I2C.WBYTE.DATA, R144: format I2C-DATA (R84). -/
  | i2cWbyteData (data : Byte)
  /-- I2C.WBYTE.BAD, R148. -/
  | i2cWbyteBad (din : Byte)
  /-- I2C.RBYTE, R146. -/
  | i2cRbyte
  /-- I2C.RBYTE.BAD, R149. -/
  | i2cRbyteBad
  /-- I2C.STOP, R147. -/
  | i2cStop
  /-- RESET, 70_reset_and_hazards.md R250. -/
  | reset
  /-- SPI.SELECT, 42_spi_engine.md R181. -/
  | spiSelect
  /-- SPI.CMD.WRITE, R183: format SPI-CMD with `op = 00` (30_encoding.md R85, R86). -/
  | spiCmdWrite (addr : SpiAddr)
  /-- SPI.CMD.NOP01, R184: `op = 01`; the address bits are ignored. -/
  | spiCmdNop01 (addr : SpiAddr)
  /-- SPI.CMD.READ, R185: `op = 10`. -/
  | spiCmdRead (addr : SpiAddr)
  /-- SPI.CMD.MREAD, R186: `op = 11`. -/
  | spiCmdMread (addr : SpiAddr)
  /-- SPI.DATA.READ, R187: the byte is ignored. -/
  | spiDataRead (data : Byte)
  /-- SPI.DATA.MREAD.CONT, R188: the byte is `SPI_CONT`. -/
  | spiDataMreadCont
  /-- SPI.DATA.MREAD.EXIT, R189: the byte, not `SPI_CONT`, is a command. -/
  | spiDataMreadExit (din : Byte)
  /-- SPI.DATA.WRITE, R190. -/
  | spiDataWrite (data : Byte)
  /-- SPI.XFER.BAD, R192. -/
  | spiXferBad (din : Byte)
  /-- SPI.DESELECT, R191. -/
  | spiDeselect
  deriving DecidableEq, Repr

end Sys2Proof
end

