-- ==== Sys2Proof/WellFormed.lean ====
section
/-! DEFINITION. Well-formed instructions and well-formed register maps. -/

namespace Sys2Proof

/-- A register map row is legal (00_scope.md R6): width 1 to 3 bytes, reset value inside the width. -/
def Descriptor.wf (d : Descriptor) : Bool :=
  decide (1 ≤ d.width) && decide (d.width ≤ 3) && decide (d.reset < 2 ^ (8 * d.width))

/-- Addresses pairwise different and in strictly ascending order (00_scope.md R6). -/
def strictlyAscending : List RegAddr → Bool
  | [] => true
  | a :: as => as.all (fun b => decide (a < b)) && strictlyAscending as

/-- `MAP` is well formed (00_scope.md R6). The empty map and gaps of any size are legal (D27). -/
def RegMap.wf (m : RegMap) : Bool :=
  strictlyAscending (m.map Descriptor.addr) && m.all Descriptor.wf

/-- An instruction is well formed. The one check beside the fields' widths: the byte that leaves a multi-read is not
the continuation byte `0x00` (30_encoding.md R87, 42_spi_engine.md R189). -/
def Instr.wf : Instr → Bool
  | .spiDataMreadExit din => decide (din ≠ 0x00#8)
  | .i2cStartSend => true
  | .i2cStartRecv => true
  | .i2cWbytePtr _ => true
  | .i2cWbyteData _ => true
  | .i2cWbyteBad _ => true
  | .i2cRbyte => true
  | .i2cRbyteBad => true
  | .i2cStop => true
  | .reset => true
  | .spiSelect => true
  | .spiCmdWrite _ => true
  | .spiCmdNop01 _ => true
  | .spiCmdRead _ => true
  | .spiCmdMread _ => true
  | .spiDataRead _ => true
  | .spiDataMreadCont => true
  | .spiDataWrite _ => true
  | .spiXferBad _ => true
  | .spiDeselect => true

end Sys2Proof
end

