-- ==== Sys2Proof/Decode.lean ====
section
/-! DEFINITION. The event word, the state-dependent decoder, the opcode table as data, and the encoder
(30_encoding.md; opcode_table.json). A decoder is a function of `(BUS, state, W)` (R88). -/

namespace Sys2Proof

/-! ## The event word (R80, R81) -/

/-- The event kinds of R81 with what they carry. -/
inductive Event where
  | start
  | startRecv
  | byteIn (din : Byte)
  | byteOutReq
  | stop
  | reset
  deriving DecidableEq, Repr

/-- `ev = W[10:8]` (R80). -/
def evField (w : EventWord) : BitVec 3 := w.extractLsb' 8 3

/-- `din = W[7:0]` (R80). -/
def dinField (w : EventWord) : Byte := w.extractLsb' 0 8

/-- `W = ev ++ din` (R80). -/
def eventWord (ev : BitVec 3) (din : Byte) : EventWord := ev ++ din

/-- The event a word names (R81). `din` is ignored but for `ev = 2` (R80); `ev = 6, 7` name none (R82). -/
def Event.ofWord (w : EventWord) : Option Event :=
  match (evField w).toNat with
  | 0 => some .start
  | 1 => some .startRecv
  | 2 => some (.byteIn (dinField w))
  | 3 => some .byteOutReq
  | 4 => some .stop
  | 5 => some .reset
  | _ => none

/-- The word of an event in the trace notation of R91, with the ignored `din` at its conventional 0. -/
def Event.word : Event → EventWord
  | .start => eventWord 0#3 0x00#8
  | .startRecv => eventWord 1#3 0x00#8
  | .byteIn din => eventWord 2#3 din
  | .byteOutReq => eventWord 3#3 0x00#8
  | .stop => eventWord 4#3 0x00#8
  | .reset => eventWord 5#3 0x00#8

/-! ## SPI command bytes (R85, R86, R90) -/

/-- `SPI_CONT`, the continuation byte of a multi-read (00_scope.md R7, R87). -/
def spiCont : Byte := 0x00#8

/-- `op = din[7:6] = din >> 6` (R90). -/
def cmdOp (din : Byte) : BitVec 2 := din.extractLsb' 6 2

/-- `addr = din[5:0] = din & SPI_ADDR_MASK`, the mask being `0x3F` (R90). -/
def cmdAddr (din : Byte) : SpiAddr := (din &&& 0x3F#8).setWidth 6

/-- The command byte `op ++ addr` (R85). -/
def cmdByte (op : BitVec 2) (addr : SpiAddr) : Byte := op ++ addr

/-- The instruction a command byte stands for (R86; `command(din)` of 42_spi_engine.md R182). -/
def decodeCommand (din : Byte) : Instr :=
  match (cmdOp din).toNat with
  | 0 => .spiCmdWrite (cmdAddr din)
  | 1 => .spiCmdNop01 (cmdAddr din)
  | 2 => .spiCmdRead (cmdAddr din)
  | _ => .spiCmdMread (cmdAddr din)

/-! ## State-dependent decoding (R88) -/

/-- What the decoder looks at beside the word: `BUS`, and the part of the engine state that R88 names. -/
inductive Context where
  | i2c (phase : Phase)
  | spi (sel : Bool) (mode : Mode)
  deriving DecidableEq, Repr

/-- Event words without a meaning (R82). -/
inductive DecodeError where
  /-- `ev` is 6 or 7. -/
  | reservedKind
  /-- `ev` is 1 or 3 and the instance has `BUS = SPI`. -/
  | noMeaningOnSpi
  deriving DecidableEq, Repr

/-- A `BYTE_IN` with `BUS = I2C` (R88). -/
def selectI2cByte (phase : Phase) (din : Byte) : Instr :=
  match phase with
  | .addressing => .i2cWbytePtr din
  | .writing => .i2cWbyteData din
  | .idle => .i2cWbyteBad din
  | .reading => .i2cWbyteBad din

/-- A `BYTE_OUT_REQ` with `BUS = I2C` (41_i2c_engine.md R140). -/
def selectI2cRequest (phase : Phase) : Instr :=
  match phase with
  | .reading => .i2cRbyte
  | .idle => .i2cRbyteBad
  | .addressing => .i2cRbyteBad
  | .writing => .i2cRbyteBad

/-- A `BYTE_IN` with `BUS = SPI`: SPI.XFER's dispatch (42_spi_engine.md R182). -/
def selectSpiByte (sel : Bool) (mode : Mode) (din : Byte) : Instr :=
  if sel then
    match mode with
    | .standby => decodeCommand din
    | .read => .spiDataRead din
    | .write => .spiDataWrite din
    | .multiRead => if din = spiCont then .spiDataMreadCont else .spiDataMreadExit din
  else .spiXferBad din

/-- The instruction an event is on this bus in this state (R81, R82, R88). -/
def selectInstr (ctx : Context) (e : Event) : Except DecodeError Instr :=
  match ctx with
  | .i2c phase =>
    match e with
    | .start => .ok .i2cStartSend
    | .startRecv => .ok .i2cStartRecv
    | .byteIn din => .ok (selectI2cByte phase din)
    | .byteOutReq => .ok (selectI2cRequest phase)
    | .stop => .ok .i2cStop
    | .reset => .ok .reset
  | .spi sel mode =>
    match e with
    | .start => .ok .spiSelect
    | .startRecv => .error .noMeaningOnSpi
    | .byteIn din => .ok (selectSpiByte sel mode din)
    | .byteOutReq => .error .noMeaningOnSpi
    | .stop => .ok .spiDeselect
    | .reset => .ok .reset

/-- The decoder: total on any event word. -/
def decode (ctx : Context) (w : EventWord) : Except DecodeError Instr :=
  match Event.ofWord w with
  | some e => selectInstr ctx e
  | none => .error .reservedKind

/-! ## The opcode table as data (opcode_table.json) -/

/-- The row an instruction belongs to, by the table's mnemonic. -/
def Instr.mnemonic : Instr → String
  | .i2cStartSend => "I2C.START.SEND"
  | .i2cStartRecv => "I2C.START.RECV"
  | .i2cWbytePtr _ => "I2C.WBYTE.PTR"
  | .i2cWbyteData _ => "I2C.WBYTE.DATA"
  | .i2cWbyteBad _ => "I2C.WBYTE.BAD"
  | .i2cRbyte => "I2C.RBYTE"
  | .i2cRbyteBad => "I2C.RBYTE.BAD"
  | .i2cStop => "I2C.STOP"
  | .reset => "RESET"
  | .spiSelect => "SPI.SELECT"
  | .spiCmdWrite _ => "SPI.CMD.WRITE"
  | .spiCmdNop01 _ => "SPI.CMD.NOP01"
  | .spiCmdRead _ => "SPI.CMD.READ"
  | .spiCmdMread _ => "SPI.CMD.MREAD"
  | .spiDataRead _ => "SPI.DATA.READ"
  | .spiDataMreadCont => "SPI.DATA.MREAD.CONT"
  | .spiDataMreadExit _ => "SPI.DATA.MREAD.EXIT"
  | .spiDataWrite _ => "SPI.DATA.WRITE"
  | .spiXferBad _ => "SPI.XFER.BAD"
  | .spiDeselect => "SPI.DESELECT"

/-- A row's column `when`, with `bus`. -/
inductive When where
  /-- `bus = I2C`, any phase. -/
  | i2cAny
  /-- `bus = I2C`, one of these phases. -/
  | i2cPhase (phases : List Phase)
  /-- `bus = I2C or SPI`, any state. -/
  | always
  /-- `bus = SPI`, any state. -/
  | spiAny
  /-- `bus = SPI`, `sel = 0`. -/
  | spiUnselected
  /-- `bus = SPI`, `sel = 1`, this mode. -/
  | spiMode (mode : Mode)
  /-- `bus = SPI`, `sel = 1`, `mode = multi_read`, `din != 0x00`. -/
  | spiExit
  /-- `bus = SPI`, `sel = 1`, and `mode = standby`, or `mode = multi_read` with `din != 0x00`. -/
  | spiCommand
  deriving DecidableEq, Repr

/-- Does the condition hold of this state and this data byte? -/
def When.holds (c : When) (ctx : Context) (din : Byte) : Bool :=
  match c, ctx with
  | .always, _ => true
  | .i2cAny, .i2c _ => true
  | .i2cPhase ps, .i2c phase => ps.contains phase
  | .spiAny, .spi _ _ => true
  | .spiUnselected, .spi sel _ => !sel
  | .spiMode m, .spi sel mode => sel && decide (mode = m)
  | .spiExit, .spi sel mode => sel && decide (mode = .multiRead) && decide (din ≠ 0x00#8)
  | .spiCommand, .spi sel mode =>
    sel && (decide (mode = .standby) || decide (mode = .multiRead) && decide (din ≠ 0x00#8))
  | _, _ => false

/-- A row of opcode_table.json. -/
structure Row where
  mnemonic : String
  pattern  : EventWord
  mask     : EventWord
  cond     : When
  deriving DecidableEq, Repr

/-- The rows with `bus` = I2C, and RESET. -/
def opcodeRowsI2c : List Row :=
  [ ⟨"I2C.START.SEND", 0x000#11, 0x700#11, .i2cAny⟩,
    ⟨"I2C.START.RECV", 0x100#11, 0x700#11, .i2cAny⟩,
    ⟨"I2C.WBYTE.PTR", 0x200#11, 0x700#11, .i2cPhase [.addressing]⟩,
    ⟨"I2C.WBYTE.DATA", 0x200#11, 0x700#11, .i2cPhase [.writing]⟩,
    ⟨"I2C.WBYTE.BAD", 0x200#11, 0x700#11, .i2cPhase [.idle, .reading]⟩,
    ⟨"I2C.RBYTE", 0x300#11, 0x700#11, .i2cPhase [.reading]⟩,
    ⟨"I2C.RBYTE.BAD", 0x300#11, 0x700#11, .i2cPhase [.idle, .addressing, .writing]⟩,
    ⟨"I2C.STOP", 0x400#11, 0x700#11, .i2cAny⟩,
    ⟨"RESET", 0x500#11, 0x700#11, .always⟩ ]

/-- The rows with `bus` = SPI. -/
def opcodeRowsSpi : List Row :=
  [ ⟨"SPI.SELECT", 0x000#11, 0x700#11, .spiAny⟩,
    ⟨"SPI.CMD.WRITE", 0x200#11, 0x7C0#11, .spiCommand⟩,
    ⟨"SPI.CMD.NOP01", 0x240#11, 0x7C0#11, .spiCommand⟩,
    ⟨"SPI.CMD.READ", 0x280#11, 0x7C0#11, .spiCommand⟩,
    ⟨"SPI.CMD.MREAD", 0x2C0#11, 0x7C0#11, .spiCommand⟩,
    ⟨"SPI.DATA.READ", 0x200#11, 0x700#11, .spiMode .read⟩,
    ⟨"SPI.DATA.MREAD.CONT", 0x200#11, 0x7FF#11, .spiMode .multiRead⟩,
    ⟨"SPI.DATA.MREAD.EXIT", 0x200#11, 0x700#11, .spiExit⟩,
    ⟨"SPI.DATA.WRITE", 0x200#11, 0x700#11, .spiMode .write⟩,
    ⟨"SPI.XFER.BAD", 0x200#11, 0x700#11, .spiUnselected⟩,
    ⟨"SPI.DESELECT", 0x400#11, 0x700#11, .spiAny⟩ ]

def opcodeTable : List Row := opcodeRowsI2c ++ opcodeRowsSpi

/-- The row takes this word in this state. -/
def Row.takes (r : Row) (ctx : Context) (w : EventWord) : Bool :=
  decide (w &&& r.mask = r.pattern) && r.cond.holds ctx (dinField w)

/-! ## The encoder -/

/-- The event that carries an instruction: the trace form of its row (R91), the `din` field per R83 to R87. -/
def Instr.event : Instr → Event
  | .i2cStartSend => .start
  | .i2cStartRecv => .startRecv
  | .i2cWbytePtr ptr => .byteIn ptr
  | .i2cWbyteData data => .byteIn data
  | .i2cWbyteBad din => .byteIn din
  | .i2cRbyte => .byteOutReq
  | .i2cRbyteBad => .byteOutReq
  | .i2cStop => .stop
  | .reset => .reset
  | .spiSelect => .start
  | .spiCmdWrite addr => .byteIn (cmdByte 0b00#2 addr)
  | .spiCmdNop01 addr => .byteIn (cmdByte 0b01#2 addr)
  | .spiCmdRead addr => .byteIn (cmdByte 0b10#2 addr)
  | .spiCmdMread addr => .byteIn (cmdByte 0b11#2 addr)
  | .spiDataRead data => .byteIn data
  | .spiDataMreadCont => .byteIn spiCont
  | .spiDataMreadExit din => .byteIn din
  | .spiDataWrite data => .byteIn data
  | .spiXferBad din => .byteIn din
  | .spiDeselect => .stop

/-- The word of an instruction (R80, R91). -/
def encode (i : Instr) : EventWord := i.event.word

/-- The states in which the decoder gives this instruction, where its bus and state suit it: the table's `bus` and
`when`, with a non-zero byte in `multi_read` going to the row SPI.DATA.MREAD.EXIT, which is the dispatch, and not to
the four SPI.CMD rows, which give its effect (log entry 5). -/
def Instr.cond : Instr → When
  | .i2cStartSend => .i2cAny
  | .i2cStartRecv => .i2cAny
  | .i2cWbytePtr _ => .i2cPhase [.addressing]
  | .i2cWbyteData _ => .i2cPhase [.writing]
  | .i2cWbyteBad _ => .i2cPhase [.idle, .reading]
  | .i2cRbyte => .i2cPhase [.reading]
  | .i2cRbyteBad => .i2cPhase [.idle, .addressing, .writing]
  | .i2cStop => .i2cAny
  | .reset => .always
  | .spiSelect => .spiAny
  | .spiCmdWrite _ => .spiMode .standby
  | .spiCmdNop01 _ => .spiMode .standby
  | .spiCmdRead _ => .spiMode .standby
  | .spiCmdMread _ => .spiMode .standby
  | .spiDataRead _ => .spiMode .read
  | .spiDataMreadCont => .spiMode .multiRead
  | .spiDataMreadExit _ => .spiMode .multiRead
  | .spiDataWrite _ => .spiMode .write
  | .spiXferBad _ => .spiUnselected
  | .spiDeselect => .spiAny

/-! ## A word without its state (log entry 4) -/

/-- The event word of a table word of `nbits` bits. A number of more than 11 bits is no event word (R80): it is read as
the reserved word `0x700`, so that the decoder refuses it. -/
def tableWord (nbits w : Nat) : EventWord :=
  if w % 2 ^ nbits < 2 ^ 11 then BitVec.ofNat 11 (w % 2 ^ nbits) else 0x700#11

/-- A state in which a word is the instruction of the most specific row that takes it (the row with the longest mask;
among equals the first of the table). A word alone has no meaning (R88), so this is the model's choice, log entry 4. -/
def tableContext (w : EventWord) : Context :=
  match Event.ofWord w with
  | some (.byteIn din) => if din = spiCont then .spi true .multiRead else .spi true .standby
  | some .byteOutReq => .i2c .reading
  | some .start => .i2c .idle
  | some .startRecv => .i2c .idle
  | some .stop => .i2c .idle
  | some .reset => .i2c .idle
  | none => .i2c .idle

/-- The instruction the decoder reads from a word of the opcode table, in that state. -/
def decodeTableWord (nbits w : Nat) : Option Instr :=
  match decode (tableContext (tableWord nbits w)) (tableWord nbits w) with
  | .ok i => some i
  | .error _ => none

end Sys2Proof
end

