-- ==== Sys2Proof/Machine/State.lean ====
section
/-! DEFINITION. The state of one instance (10_state.md R20), the reset state (R35), and the reasons a step can stop. -/

namespace Sys2Proof.Machine

/-- A register (10_state.md R21, R22): its attributes, which no event changes, and its current value `x[a]`. -/
structure Register where
  desc  : Descriptor
  value : RegValue
  deriving DecidableEq, Repr

/-- The Register File (10_state.md R24): the registers in ascending address order, one entry per defined address.
`RegFile.wf` (Machine/Ops.lean) is its canonical form. -/
abbrev RegFile := List Register

/-- The I2C engine's state (10_state.md R25 to R28). -/
structure I2cState where
  ptr    : RegAddr
  ptrEnd : Bool
  cursor : BitVec 2
  phase  : Phase
  deriving DecidableEq, Repr

/-- The SPI engine's state (10_state.md R29 to R31). -/
structure SpiState where
  mode    : Mode
  address : SpiAddr
  sel     : Bool
  deriving DecidableEq, Repr

/-- The one engine an instance contains. The state of the other does not exist (10_state.md R20), so the constructor is
the instance's `BUS`. -/
inductive Engine where
  | i2c (e : I2cState)
  | spi (e : SpiState)
  deriving DecidableEq, Repr

/-- `BUS` of an instance (00_scope.md R5). -/
def Engine.bus : Engine → Bus
  | .i2c _ => .i2c
  | .spi _ => .spi

/-- `ack` of a response (00_scope.md R9). -/
inductive Ack where
  | ack
  | nack
  deriving DecidableEq, Repr

/-- The response `(dout, ack, err)` of a step (00_scope.md R9). -/
structure Response where
  dout : Option Byte
  ack  : Option Ack
  err  : Bool
  deriving DecidableEq, Repr

/-- The state of an instance with its configuration and its two ports.
`params` is the configuration of 00_scope.md R7, fixed at construction (`BUS` is `engine`'s constructor, `MAP` the
descriptors of `regs`). `regs` and `engine` are the architectural state of 10_state.md R20. `events` is the host's
stream, in bus order, of the event words not yet delivered (00_scope.md R8; log entry 2). `resp` is the response of the
latest step (00_scope.md R9; log entry 2). `draws` counts the free values drawn so far (the model's own; log entry 3). -/
structure State where
  params : Params
  regs   : RegFile
  engine : Engine
  events : List EventWord
  resp   : Response
  draws  : Nat
  deriving DecidableEq, Repr

/-- The reasons to stop with a fault: there are none. "No condition stops the block" (60_exceptions.md R227):
`UnknownAddress` is absorbed and `MalformedSequence` is a next state (R221, R223). -/
inductive Fault where
  deriving DecidableEq, Repr

/-- The reasons to stop without a meaning. -/
inductive Refusal where
  /-- Raised by an arm of `exec` whose instruction has no meaning yet. Safe. No arm raises it. -/
  | notModelled (mnemonic : String)
  /-- Raised by `step` on an event word without a meaning (30_encoding.md R82, D23: a model refuses it). Safe. -/
  | noMeaning (why : DecodeError)
  /-- Raised by an instruction of the engine that the instance does not contain: the state it acts on does not exist
  (10_state.md R20), and the decoder never gives it on that instance. Safe. -/
  | otherBus
  /-- Raised by SPI.DATA.MREAD.CONT at `address = 63`, only in an instance configured with `SPI_ADDR_WRAP = refuse`
  (42_spi_engine.md R194). Safe. -/
  | addrWrap
  /-- Raised by `State.construct` on an ill-formed `MAP` (00_scope.md R6: the model refuses it). Safe. -/
  | illFormedMap
  deriving DecidableEq, Repr

/-- A register as it is created: at its reset value (10_state.md R22). -/
def Register.fresh (d : Descriptor) : Register := { desc := d, value := d.resetValue }

/-- The I2C engine after reset (10_state.md R35). -/
def I2cState.fresh (p : Params) : I2cState :=
  { ptr := p.ptrReset, ptrEnd := false, cursor := 0#2, phase := .idle }

/-- The SPI engine after reset (10_state.md R35). -/
def SpiState.fresh (p : Params) : SpiState :=
  { mode := .standby, address := p.spiAddrReset, sel := false }

/-- The engine `BUS` selects, after reset. -/
def Engine.fresh (p : Params) : Bus → Engine
  | .i2c => .i2c (I2cState.fresh p)
  | .spi => .spi (SpiState.fresh p)

/-- The response of a step that answers nothing. It also stands in `resp` before the first step. -/
def Response.silent : Response := { dout := none, ack := none, err := false }

/-- The state of a freshly constructed instance: its reset state (70_reset_and_hazards.md R251, 10_state.md R35). -/
def State.fresh (bus : Bus) (map : RegMap) (p : Params) : State :=
  { params := p, regs := map.map Register.fresh, engine := Engine.fresh p bus, events := [], resp := Response.silent,
    draws := 0 }

/-- The constructor (00_scope.md R6): it takes `MAP` and refuses an ill-formed one. -/
def State.construct (bus : Bus) (map : RegMap) (p : Params) : Except Refusal State :=
  if map.wf then .ok (State.fresh bus map p) else .error .illFormedMap

/-- The machine right after reset: the instance of `Config.defaultBus` and `Config.defaultMap` with the parameters at
R7's defaults (log entry 1). Every statement is made for every instance. -/
def State.reset : State := State.fresh Config.defaultBus Config.defaultMap {}

end Sys2Proof.Machine
end

