-- ==== Sys2Proof/Machine/Operands.lean ====
section
/-! DEFINITION. The operand forms and constants: serialisation of a register value (40_register_file.md R114, R115),
truncation (R111), the fixed bytes of the SPI engine (00_scope.md R7), the state the decoder looks at (30_encoding.md R88),
and the spec's numbering of the two enumerations (10_state.md R36). -/

namespace Sys2Proof.Machine

/-- `SPI_UNDEF_READ` (00_scope.md R7): the byte an SPI read of an undefined address emits. -/
def spiUndefRead : Byte := 0x00#8

/-- `SPI_IDLE_OUT` (00_scope.md R7; D14 for write-data exchanges): the byte of an exchange that returns no register
data. -/
def spiIdleOut : Byte := 0x00#8

/-- The lane of the k-th bus byte of a register of width `w` (R114). -/
def busLane (w : Nat) (order : ByteOrder) (k : Nat) : Nat :=
  match order with
  | .le => k
  | .be => w - 1 - k

/-- `v[8k+7:8k]` (00_scope.md section 5.1). -/
def laneOf (v : RegValue) (lane : Nat) : Byte := (v >>> (8 * lane)).setWidth 8

/-- `v` with one lane replaced, the others kept. -/
def withLane (v : RegValue) (lane : Nat) (b : Byte) : RegValue :=
  (v &&& ~~~(0x0000FF#24 <<< (8 * lane))) ||| (b.setWidth 24 <<< (8 * lane))

/-- `byte_of(v, w, order, k)` (R114). -/
def byteOf (v : RegValue) (w : Nat) (order : ByteOrder) (k : Nat) : Byte := laneOf v (busLane w order k)

/-- `with_byte(v, w, order, k, b)` (R115). -/
def withByte (v : RegValue) (w : Nat) (order : ByteOrder) (k : Nat) (b : Byte) : RegValue :=
  withLane v (busLane w order k) b

/-- `trunc_(8*w)(v) = v mod 2^(8*w)` (R111). -/
def truncTo (w : Nat) (v : Nat) : RegValue := BitVec.ofNat 24 (v % 2 ^ (8 * w))

/-- An SPI address as a register address (30_encoding.md R90: zero-extended). -/
def spiRegAddr (a : SpiAddr) : RegAddr := a.setWidth 8

/-- What the decoder looks at in an engine (30_encoding.md R88). -/
def Engine.context : Engine → Context
  | .i2c e => .i2c e.phase
  | .spi e => .spi e.sel e.mode

/-- The spec's own numbering of `phase` (10_state.md R36). No rule depends on it. -/
def phaseCode : Phase → BitVec 2
  | .idle => 0#2
  | .addressing => 1#2
  | .writing => 2#2
  | .reading => 3#2

/-- The spec's own numbering of `mode` (10_state.md R36). No rule depends on it. -/
def modeCode : Mode → BitVec 2
  | .standby => 0#2
  | .read => 1#2
  | .multiRead => 2#2
  | .write => 3#2

end Sys2Proof.Machine
end

