-- ==== Sys2Proof/Machine/Flags.lean ====
section
/-! DEFINITION. The one-bit results. The block has no condition codes (10_state.md R33): its only flags are `ptr_end`
(R26), which auto-increment computes, and `sel` (R31), which select, deselect and RESET assign; beside them stand the
acknowledge and error bits of a response (00_scope.md R9). -/

namespace Sys2Proof.Machine

/-- `ptr_end` after auto-increment asked `RF.next` for the following register (41_i2c_engine.md R145). -/
def ptrEndAfter (next : Option RegAddr) : Bool := next.isNone

/-- The response that returns a byte: `(d, none, false)`. -/
def Response.data (d : Byte) : Response := { dout := some d, ack := none, err := false }

/-- The response that accepts an incoming byte: `(none, ACK, false)`. -/
def Response.accepted : Response := { dout := none, ack := some .ack, err := false }

/-- The response to a malformed I2C incoming byte: `(none, NACK, true)` (60_exceptions.md R223). -/
def Response.rejected : Response := { dout := none, ack := some .nack, err := true }

/-- The response to a malformed event that must be answered by a byte: `(d, none, true)` (60_exceptions.md R223). -/
def Response.dataError (d : Byte) : Response := { dout := some d, ack := none, err := true }

/-- What `raise MalformedSequence(e)` answers (60_exceptions.md R223). Only the three events of the list there raise it;
the last arm is never reached. -/
def malformedResponse (p : Params) (bus : Bus) (e : Event) : Response :=
  match bus, e with
  | .i2c, .byteIn _ => Response.rejected
  | .i2c, .byteOutReq => Response.dataError p.i2cFiller
  | .spi, .byteIn _ => Response.dataError spiIdleOut
  | _, _ => { dout := none, ack := none, err := true }

end Sys2Proof.Machine
end

