-- ==== Sys2Proof/Machine/Ops.lean ====
section
/-! DEFINITION. The shared operations: the Register File (40_register_file.md), state updates, the I2C auto-increment
(41_i2c_engine.md R145), the SPI read and address increment (42_spi_engine.md R193, R194), `raise MalformedSequence`
(60_exceptions.md R223), and the host's port. There is no return from a condition (60_exceptions.md R224): nothing is
saved, and the next well-ordered event simply runs. -/

namespace Sys2Proof.Machine

/-- The outcome of an instruction. -/
abbrev Result := Host.Outcome State Fault Refusal

/-! ## The Register File -/

/-- `MAP`: the descriptors of the registers. -/
def RegFile.regMap (rf : RegFile) : RegMap := List.map Register.desc rf

/-- `dom(MAP)` in the file's order. -/
def RegFile.dom (rf : RegFile) : List RegAddr := List.map (fun r => r.desc.addr) rf

/-- The register at an address: `MAP[a]` and `x[a]` (00_scope.md section 5.2). -/
def RegFile.lookup (rf : RegFile) (a : RegAddr) : Option Register := List.find? (fun r => decide (r.desc.addr = a)) rf

/-- `RF.read(a)` (R110): value and width, or `UnknownAddress` (`none`). -/
def RegFile.read (rf : RegFile) (a : RegAddr) : Option (RegValue × Nat) :=
  (rf.lookup a).map (fun r => (r.value, r.desc.width))

/-- `RF.write(a, v)` (R111): truncated to the width if the register is `RW`; a no-op otherwise. -/
def RegFile.write (rf : RegFile) (a : RegAddr) (v : Nat) : RegFile :=
  List.map
    (fun r => if r.desc.addr = a ∧ r.desc.access = .rw then { r with value := truncTo r.desc.width v } else r) rf

/-- `RF.reset()` (R112). -/
def RegFile.reset (rf : RegFile) : RegFile := List.map (fun r => Register.fresh r.desc) rf

/-- The least of the addresses above `a`. -/
def leastAbove (a : RegAddr) : List RegAddr → Option RegAddr
  | [] => none
  | b :: bs =>
    if a < b then
      match leastAbove a bs with
      | none => some b
      | some c => some (if b < c then b else c)
    else leastAbove a bs

/-- `RF.next(a)` (R113), for defined and undefined `a` alike (D6). -/
def RegFile.next (rf : RegFile) (a : RegAddr) : Option RegAddr := leastAbove a rf.dom

/-- How many bytes the I2C engine transfers at an address: the register's width, or 1 at an undefined address
(41_i2c_engine.md R153, D5). -/
def RegFile.widthAt (rf : RegFile) (a : RegAddr) : Nat :=
  match rf.lookup a with
  | some r => r.desc.width
  | none => 1

/-- The canonical form of a Register File: the map is well formed (00_scope.md R6) and every value is inside its width
(10_state.md R21). -/
def RegFile.wf (rf : RegFile) : Bool :=
  rf.regMap.wf && List.all rf (fun r => decide (r.value.toNat < 2 ^ (8 * r.desc.width)))

/-- Every read-only register holds its reset value (10_state.md R23). -/
def RegFile.roHeld (rf : RegFile) : Bool :=
  List.all rf (fun r => decide (r.desc.access = .ro → r.value = r.desc.resetValue))

/-! ## State updates and responses -/

def State.setEngine (s : State) (g : Engine) : State := { s with engine := g }
def State.setRegs (s : State) (rf : RegFile) : State := { s with regs := rf }
def State.setEvents (s : State) (ws : List EventWord) : State := { s with events := ws }
def State.answer (s : State) (r : Response) : State := { s with resp := r }
def State.setDraws (s : State) (n : Nat) : State := { s with draws := n }
def State.setI2c (s : State) (e : I2cState) : State := s.setEngine (.i2c e)
def State.setSpi (s : State) (e : SpiState) : State := s.setEngine (.spi e)

/-- Run an I2C instruction on the I2C engine; an SPI instance has none (10_state.md R20). -/
def onI2c (s : State) (f : I2cState → Result) : Result :=
  match s.engine with
  | .i2c e => f e
  | .spi _ => .refused .otherBus

/-- Run an SPI instruction on the SPI engine; an I2C instance has none (10_state.md R20). -/
def onSpi (s : State) (f : SpiState → Result) : Result :=
  match s.engine with
  | .spi e => f e
  | .i2c _ => .refused .otherBus

/-! ## The I2C engine's shared steps -/

/-- `advance()` (41_i2c_engine.md R145). -/
def advance (rf : RegFile) (e : I2cState) : I2cState :=
  match rf.next e.ptr with
  | some a => { e with cursor := 0#2, ptr := a }
  | none => { e with cursor := 0#2, ptrEnd := ptrEndAfter none }

/-- One byte of a register of width `w` has been transferred: `cursor + 1`, then `advance()` at the width
(41_i2c_engine.md R144, R146). -/
def consumeByte (rf : RegFile) (w : Nat) (e : I2cState) : I2cState :=
  if (e.cursor + 1#2).toNat = w then advance rf { e with cursor := e.cursor + 1#2 }
  else { e with cursor := e.cursor + 1#2 }

/-! ## The SPI engine's shared steps -/

/-- `spi_read(a)` (42_spi_engine.md R193): lane 0 (D15), or `SPI_UNDEF_READ`. -/
def spiRead (rf : RegFile) (a : SpiAddr) : Byte :=
  match rf.read (spiRegAddr a) with
  | none => spiUndefRead
  | some (v, _) => v.setWidth 8

/-- `inc6(a)` (42_spi_engine.md R194): the incremented address and the number of free values drawn so far; `none` where
`SPI_ADDR_WRAP = refuse` gives the step no meaning. With `any` the address after 63 is a FREE VALUE (log entry 3). -/
def inc6 (p : Params) (draws : Nat) (a : SpiAddr) : Option (SpiAddr × Nat) :=
  if a.toNat < 63 then some (a + 1#6, draws)
  else
    match p.spiAddrWrap with
    | .refuse => none
    | .wrap0 => some (0#6, draws)
    | .any => some (Config.freeAddress draws, draws + 1)

/-- A command byte's effect (42_spi_engine.md R183, R185, R186): store the address, enter the mode, answer `0x00`. -/
def enterCommand (s : State) (e : SpiState) (mode : Mode) (addr : SpiAddr) : State :=
  (s.setSpi { e with mode := mode, address := addr }).answer (Response.data spiIdleOut)

/-! ## MalformedSequence -/

/-- The transient state forced to idle / standby (60_exceptions.md R223); everything else is kept. -/
def Engine.forceIdle : Engine → Engine
  | .i2c e => .i2c { e with cursor := 0#2, phase := .idle }
  | .spi e => .spi { e with mode := .standby }

/-- `raise MalformedSequence(e)` (60_exceptions.md R223). -/
def raiseMalformed (e : Event) (s : State) : State :=
  (s.setEngine s.engine.forceIdle).answer (malformedResponse s.params s.engine.bus e)

/-! ## RESET -/

/-- RESET's effect (70_reset_and_hazards.md R250). The host's stream and the count of free values are no state of the
block and stay (log entries 2 and 3). -/
def State.afterReset (s : State) : State :=
  ((s.setRegs s.regs.reset).setEngine (Engine.fresh s.params s.engine.bus)).answer Response.silent

/-! ## The host's port -/

/-- What the decoder looks at in this state. -/
def State.context (s : State) : Context := s.engine.context

/-- An instance in a given decoding context: the engine kept where it already is of that bus, fresh where not. -/
def Engine.inContext (p : Params) (g : Engine) (ctx : Context) : Engine :=
  match ctx, g with
  | .i2c phase, .i2c e => .i2c { e with phase := phase }
  | .i2c phase, .spi _ => .i2c { I2cState.fresh p with phase := phase }
  | .spi sel mode, .spi e => .spi { e with sel := sel, mode := mode }
  | .spi sel mode, .i2c _ => .spi { SpiState.fresh p with sel := sel, mode := mode }

/-- The instruction a decoded word is, if any. -/
def decoded? (ctx : Context) (w : EventWord) : Option Instr :=
  match decode ctx w with
  | .ok i => some i
  | .error _ => none

/-- The host delivers a table word next (log entry 4): the word stands first in the stream. Where the word would be
another instruction in this state than in `tableContext`, the engine is put into that context. -/
def State.placeWord (s : State) (w : EventWord) : State :=
  if decoded? s.context w = decoded? (tableContext w) w then s.setEvents (w :: s.events)
  else (s.setEngine (s.engine.inContext s.params (tableContext w))).setEvents (w :: s.events)

/-- The host queues further events behind those not yet delivered (00_scope.md R8). -/
def State.deliver (s : State) (ws : List EventWord) : State := s.setEvents (s.events ++ ws)

end Sys2Proof.Machine
end

