-- ==== Sys2Proof/Machine/I2c.lean ====
section
/-! DEFINITION. The I2C Transaction Engine's events (41_i2c_engine.md). -/

namespace Sys2Proof.Machine

/-- I2C.START.SEND (R141), in any phase (D3). -/
def execI2cStartSend (s : State) : Result :=
  onI2c s fun e => .next ((s.setI2c { e with cursor := 0#2, phase := .addressing }).answer Response.silent)

/-- I2C.START.RECV (R142), in any phase (D3). -/
def execI2cStartRecv (s : State) : Result :=
  onI2c s fun e => .next ((s.setI2c { e with cursor := 0#2, phase := .reading }).answer Response.silent)

/-- I2C.WBYTE.PTR (R143). -/
def execI2cWbytePtr (ptr : Byte) (s : State) : Result :=
  onI2c s fun _ =>
    .next ((s.setI2c { ptr := ptr, ptrEnd := false, cursor := 0#2, phase := .writing }).answer Response.accepted)

/-- I2C.WBYTE.DATA (R144): discarded when exhausted; one byte absorbed at an undefined pointer (R153); else merged into
the register through `RF.write`. -/
def execI2cWbyteData (data : Byte) (s : State) : Result :=
  onI2c s fun e =>
    if e.ptrEnd then .next (s.answer Response.accepted)
    else
      match s.regs.lookup e.ptr with
      | none => .next ((s.setI2c (consumeByte s.regs 1 e)).answer Response.accepted)
      | some r =>
        .next
          (((s.setRegs
              (s.regs.write e.ptr (withByte r.value r.desc.width r.desc.order e.cursor.toNat data).toNat)).setI2c
              (consumeByte s.regs r.desc.width e)).answer Response.accepted)

/-- I2C.WBYTE.BAD (R148). -/
def execI2cWbyteBad (din : Byte) (s : State) : Result :=
  onI2c s fun _ => .next (raiseMalformed (.byteIn din) s)

/-- I2C.RBYTE (R146): the filler when exhausted or at an undefined pointer (R153); else the register's next byte. -/
def execI2cRbyte (s : State) : Result :=
  onI2c s fun e =>
    if e.ptrEnd then .next (s.answer (Response.data s.params.i2cFiller))
    else
      match s.regs.lookup e.ptr with
      | none => .next ((s.setI2c (consumeByte s.regs 1 e)).answer (Response.data s.params.i2cFiller))
      | some r =>
        .next
          ((s.setI2c (consumeByte s.regs r.desc.width e)).answer
            (Response.data (byteOf r.value r.desc.width r.desc.order e.cursor.toNat)))

/-- I2C.RBYTE.BAD (R149). -/
def execI2cRbyteBad (s : State) : Result :=
  onI2c s fun _ => .next (raiseMalformed .byteOutReq s)

/-- I2C.STOP (R147), in any phase (D28). -/
def execI2cStop (s : State) : Result :=
  onI2c s fun e => .next ((s.setI2c { e with cursor := 0#2, phase := .idle }).answer Response.silent)

end Sys2Proof.Machine
end

