-- ==== Sys2Proof/Machine/Reset.lean ====
section
/-! DEFINITION. The RESET event (70_reset_and_hazards.md R250). -/

namespace Sys2Proof.Machine

/-- RESET, with either `BUS`, in any state. -/
def execReset (s : State) : Result := .next s.afterReset

end Sys2Proof.Machine
end

