-- ==== Sys2Proof/Machine/Spi.lean ====
section
/-! DEFINITION. The SPI Transfer State Machine's events (42_spi_engine.md). -/

namespace Sys2Proof.Machine

/-- SPI.SELECT (R181), also while selected (D12). -/
def execSpiSelect (s : State) : Result :=
  onSpi s fun e => .next ((s.setSpi { e with sel := true, mode := .standby }).answer Response.silent)

/-- SPI.DESELECT (R191), also while not selected (D12). -/
def execSpiDeselect (s : State) : Result :=
  onSpi s fun e => .next ((s.setSpi { e with sel := false, mode := .standby }).answer Response.silent)

/-- SPI.XFER.BAD (R192): nothing is decoded. -/
def execSpiXferBad (din : Byte) (s : State) : Result :=
  onSpi s fun _ => .next (raiseMalformed (.byteIn din) s)

/-- SPI.CMD.WRITE (R183). -/
def execSpiCmdWrite (addr : SpiAddr) (s : State) : Result :=
  onSpi s fun e => .next (enterCommand s e .write addr)

/-- SPI.CMD.NOP01 (R184): `address` is not stored (D13); `standby` is a change only after a multi-read. -/
def execSpiCmdNop01 (_addr : SpiAddr) (s : State) : Result :=
  onSpi s fun e => .next ((s.setSpi { e with mode := .standby }).answer (Response.data spiIdleOut))

/-- SPI.CMD.READ (R185). -/
def execSpiCmdRead (addr : SpiAddr) (s : State) : Result :=
  onSpi s fun e => .next (enterCommand s e .read addr)

/-- SPI.CMD.MREAD (R186). -/
def execSpiCmdMread (addr : SpiAddr) (s : State) : Result :=
  onSpi s fun e => .next (enterCommand s e .multiRead addr)

/-- SPI.DATA.READ (R187): the incoming byte is ignored. -/
def execSpiDataRead (_data : Byte) (s : State) : Result :=
  onSpi s fun e =>
    .next ((s.setSpi { e with mode := .standby }).answer (Response.data (spiRead s.regs e.address)))

/-- SPI.DATA.MREAD.CONT (R188): emit the register, increment the address (R194), stay in the mode. -/
def execSpiDataMreadCont (s : State) : Result :=
  onSpi s fun e =>
    match inc6 s.params s.draws e.address with
    | some (a, n) =>
      .next (((s.setSpi { e with address := a }).setDraws n).answer (Response.data (spiRead s.regs e.address)))
    | none => .refused .addrWrap

/-- `command(din)`, the standby processing of a byte (R182). -/
def spiCommand (din : Byte) (s : State) : Result :=
  match (cmdOp din).toNat with
  | 0 => execSpiCmdWrite (cmdAddr din) s
  | 1 => execSpiCmdNop01 (cmdAddr din) s
  | 2 => execSpiCmdRead (cmdAddr din) s
  | _ => execSpiCmdMread (cmdAddr din) s

/-- SPI.DATA.MREAD.EXIT (R189): exactly `command(din)`, in this same exchange (D16). -/
def execSpiDataMreadExit (din : Byte) (s : State) : Result := spiCommand din s

/-- SPI.DATA.WRITE (R190): the byte zero-extended goes to `RF.write` (D15). -/
def execSpiDataWrite (data : Byte) (s : State) : Result :=
  onSpi s fun e =>
    .next
      (((s.setRegs (s.regs.write (spiRegAddr e.address) data.toNat)).setSpi { e with mode := .standby }).answer
        (Response.data spiIdleOut))

end Sys2Proof.Machine
end

