-- ==== Sys2Proof/Machine/Dispatch.lean ====
section
/-! DEFINITION. One arm per instruction. -/

namespace Sys2Proof.Machine

/-- The meaning of an instruction. -/
def exec (i : Instr) (s : State) : Host.Outcome State Fault Refusal :=
  match i with
  | .i2cStartSend => Sys2Proof.Machine.execI2cStartSend s
  | .i2cStartRecv => Sys2Proof.Machine.execI2cStartRecv s
  | .i2cWbytePtr ptr => Sys2Proof.Machine.execI2cWbytePtr ptr s
  | .i2cWbyteData data => Sys2Proof.Machine.execI2cWbyteData data s
  | .i2cWbyteBad din => Sys2Proof.Machine.execI2cWbyteBad din s
  | .i2cRbyte => Sys2Proof.Machine.execI2cRbyte s
  | .i2cRbyteBad => Sys2Proof.Machine.execI2cRbyteBad s
  | .i2cStop => Sys2Proof.Machine.execI2cStop s
  | .reset => Sys2Proof.Machine.execReset s
  | .spiSelect => Sys2Proof.Machine.execSpiSelect s
  | .spiCmdWrite addr => Sys2Proof.Machine.execSpiCmdWrite addr s
  | .spiCmdNop01 addr => Sys2Proof.Machine.execSpiCmdNop01 addr s
  | .spiCmdRead addr => Sys2Proof.Machine.execSpiCmdRead addr s
  | .spiCmdMread addr => Sys2Proof.Machine.execSpiCmdMread addr s
  | .spiDataRead data => Sys2Proof.Machine.execSpiDataRead data s
  | .spiDataMreadCont => Sys2Proof.Machine.execSpiDataMreadCont s
  | .spiDataMreadExit din => Sys2Proof.Machine.execSpiDataMreadExit din s
  | .spiDataWrite data => Sys2Proof.Machine.execSpiDataWrite data s
  | .spiXferBad din => Sys2Proof.Machine.execSpiXferBad din s
  | .spiDeselect => Sys2Proof.Machine.execSpiDeselect s

end Sys2Proof.Machine
end

