-- ==== Sys2Proof/Machine/Step.lean ====
section
/-! DEFINITION. One step: the host delivers the next event (00_scope.md R8). -/

namespace Sys2Proof.Machine

/-- One step takes the next event word off the host's stream, decodes it in the state it meets (30_encoding.md R88) and
runs it. A word without a meaning is refused (R82). With no event to deliver the block rests (00_scope.md R8,
60_exceptions.md R231; log entry 2). -/
def step (s : State) : Host.Outcome State Fault Refusal :=
  match s.events with
  | [] => .next s
  | w :: rest =>
    match decode s.context w with
    | .ok i => exec i (s.setEvents rest)
    | .error why => .refused (.noMeaning why)

/-- `s` with a table word as the next event to be delivered (log entry 4). -/
def State.withFetchWord (s : State) (nbits w : Nat) : State := s.placeWord (tableWord nbits w)

end Sys2Proof.Machine
end

