-- ==== Sys2Proof/Machine/Trace.lean ====
section
/-! DEFINITION. Event streams: the composite transactions (30_encoding.md R92), a run with its responses, and the byte
stream of the I2C burst property (41_i2c_engine.md R150). -/

namespace Sys2Proof.Machine

/-! ## Composite transactions (R92) -/

/-- `I2C.SETPTR a` = `START; IN a; STOP`. -/
def i2cSetptr (a : Byte) : List EventWord := [Event.start.word, (Event.byteIn a).word, Event.stop.word]

/-- `I2C.WRITE a, b0 .. bn-1` = `START; IN a; IN b0; ...; IN bn-1; STOP`. -/
def i2cWrite (a : Byte) (bs : List Byte) : List EventWord :=
  Event.start.word :: (Event.byteIn a).word :: (bs.map (fun b => (Event.byteIn b).word) ++ [Event.stop.word])

/-- `I2C.READ n` = `START_RECV; OUT? (n times); STOP`. -/
def i2cRead (n : Nat) : List EventWord :=
  Event.startRecv.word :: (List.replicate n Event.byteOutReq.word ++ [Event.stop.word])

/-- `I2C.READAT a, n` = `I2C.SETPTR a` then `I2C.READ n`. -/
def i2cReadat (a : Byte) (n : Nat) : List EventWord := i2cSetptr a ++ i2cRead n

/-- `SPI.RD a` = `IN (0x80 | a); IN xx`. -/
def spiRd (a : SpiAddr) (xx : Byte) : List EventWord :=
  [(Event.byteIn (0x80#8 ||| a.setWidth 8)).word, (Event.byteIn xx).word]

/-- `SPI.WR a, bb` = `IN (0x00 | a); IN bb`. -/
def spiWr (a : SpiAddr) (bb : Byte) : List EventWord :=
  [(Event.byteIn (0x00#8 ||| a.setWidth 8)).word, (Event.byteIn bb).word]

/-- `SPI.MRD a, n` = `IN (0xC0 | a); IN 00 (n times)`. -/
def spiMrd (a : SpiAddr) (n : Nat) : List EventWord :=
  (Event.byteIn (0xC0#8 ||| a.setWidth 8)).word :: List.replicate n (Event.byteIn 0x00#8).word

/-- `SPI.NOP` = `IN (0x40 | a)`. -/
def spiNop (a : SpiAddr) : List EventWord := [(Event.byteIn (0x40#8 ||| a.setWidth 8)).word]

/-! ## Runs -/

/-- `n` steps with the response of each, or `none` if one of them is refused. -/
def runTrace : Nat → State → Option (List Response × State)
  | 0, s => some ([], s)
  | n + 1, s =>
    match step s with
    | .next t =>
      match runTrace n t with
      | some (rs, u) => some (t.resp :: rs, u)
      | none => none
    | .fault _ => none
    | .refused _ => none

/-! ## The byte stream `S(p, e)` of R150 -/

/-- `ser(p)`: the bytes of the register at `p`, or one filler byte at an undefined address. -/
def serialise (rf : RegFile) (filler : Byte) (p : RegAddr) : List Byte :=
  match rf.lookup p with
  | some r => (List.range r.desc.width).map (fun k => byteOf r.value r.desc.width r.desc.order k)
  | none => [filler]

/-- A beginning of `S(p, e)`: the first `n` registers' (or fillers') worth of it, at least `n` bytes. -/
def streamSegments (rf : RegFile) (filler : Byte) : Nat → RegAddr → Bool → List Byte
  | 0, _, _ => []
  | n + 1, p, true => filler :: streamSegments rf filler n p true
  | n + 1, p, false =>
    serialise rf filler p ++
      match rf.next p with
      | none => streamSegments rf filler n p true
      | some q => streamSegments rf filler n q false

/-- `n` bytes of `S(p, e)` from offset `c` on: what a read at pointer `(p, e)` with cursor `c` has to return. -/
def streamBytes (rf : RegFile) (filler : Byte) (p : RegAddr) (e : Bool) (c n : Nat) : List Byte :=
  ((streamSegments rf filler (c + n) p e).drop c).take n

end Sys2Proof.Machine
end

