-- ==== Sys2Proof/Safety.lean ====
section
/-! DEFINITION. What a valid state is, in the terms the statements use (20_memory.md R63; 10_state.md R20 to R31). -/

namespace Sys2Proof

open Sys2Proof.Machine

/-- The I2C engine is inside its ranges: `cursor` counts the bytes already transferred of the register at `ptr`
(10_state.md R27), it is 0 outside a data transfer and once the map is exhausted, and `ptr_end` is only set where
`RF.next(ptr)` is `none` (R26). -/
structure I2cValid (rf : RegFile) (e : I2cState) : Prop where
  cursor_inside : e.cursor.toNat < rf.widthAt e.ptr
  cursor_zero_outside_data : e.phase = .idle ∨ e.phase = .addressing → e.cursor = 0#2
  cursor_zero_at_end : e.ptrEnd = true → e.cursor = 0#2
  end_is_last : e.ptrEnd = true → rf.next e.ptr = none

/-- The SPI engine is in standby outside the select window (42_spi_engine.md R181, R191). -/
def SpiValid (e : SpiState) : Prop := e.sel = false → e.mode = .standby

/-- The engine an instance contains is valid. -/
def EngineValid (rf : RegFile) : Engine → Prop
  | .i2c e => I2cValid rf e
  | .spi e => SpiValid e

/-- "Valid (partially updated, never corrupted)" (20_memory.md R63): the Register File is in its canonical form, every
read-only register holds its reset value (10_state.md R23), and the engine is inside its ranges. -/
structure Valid (s : State) : Prop where
  regs_wf : s.regs.wf = true
  ro_held : s.regs.roHeld = true
  engine_valid : EngineValid s.regs s.engine

/-- The event the next step is about, if the stream holds one with a meaning (00_scope.md R8). -/
def nextEvent (s : State) : Option Event :=
  match s.events with
  | [] => none
  | w :: _ => Event.ofWord w

/-- The I2C engine `e'` after one byte of a register of width `w` has been transferred in `e` (41_i2c_engine.md R144 to
R146): the cursor moves on inside the register; at its end `ptr` moves to `RF.next(ptr)`, or `ptr_end` is set. -/
structure AfterByte (rf : RegFile) (w : Nat) (e e' : I2cState) : Prop where
  inside : e.cursor.toNat + 1 < w → e' = { e with cursor := e.cursor + 1#2 }
  to_next : ∀ a, e.cursor.toNat + 1 = w → rf.next e.ptr = some a → e' = { e with ptr := a, cursor := 0#2 }
  to_end : e.cursor.toNat + 1 = w → rf.next e.ptr = none → e' = { e with ptrEnd := true, cursor := 0#2 }

/-- The next event is a data byte or a read request that transfers the last byte of the register at `ptr`, which is when
auto-increment happens (41_i2c_engine.md R145): the engine is not exhausted and `cursor + 1` is the width. -/
def TransfersLastByte (s : State) (e : I2cState) : Prop :=
  ((∃ b : Byte, nextEvent s = some (.byteIn b) ∧ e.phase = .writing) ∨
      (nextEvent s = some .byteOutReq ∧ e.phase = .reading)) ∧
    e.ptrEnd = false ∧ e.cursor.toNat + 1 = s.regs.widthAt e.ptr

/-- The next event raises `MalformedSequence`: the list of 60_exceptions.md R222. -/
def MalformedPair (g : Engine) (e : Event) : Prop :=
  match g, e with
  | .i2c st, .byteIn _ => st.phase = .idle ∨ st.phase = .reading
  | .i2c st, .byteOutReq => st.phase = .idle ∨ st.phase = .addressing ∨ st.phase = .writing
  | .spi st, .byteIn _ => st.sel = false
  | _, _ => False

/-- An instance with another content of the registers and nothing else different: same map, same engine, same
configuration, same stream. -/
structure SameButValues (s t : State) : Prop where
  params_eq : s.params = t.params
  map_eq : s.regs.regMap = t.regs.regMap
  engine_eq : s.engine = t.engine
  events_eq : s.events = t.events
  draws_eq : s.draws = t.draws

end Sys2Proof
end

