-- ==== Sys2Proof/Certificates/Slice0/Obligations.lean ====
section
/-! DEFINITION. The statements for the provers. Each says which rule of the spec it formalises; where a clause rests on a
decision that the spec marks as its own (92_eei_decisions.md D<n>) or on a choice of the model (a log entry), the
docstring names it. `{ s with … }` in a conclusion is the frame: every field not named is unchanged. -/

open Sys2Proof Sys2Proof.Machine

/-! ## The Register File -/

/-- 40_register_file.md R110. -/
def Obligations.RfReadAnswersRegisterOrUnknownAddress : Prop :=
  ∀ rf : RegFile, rf.wf = true →
    (∀ r ∈ rf, rf.read r.desc.addr = some (r.value, r.desc.width)) ∧
    (∀ a : RegAddr, a ∉ rf.dom → rf.read a = none)

/-- 40_register_file.md R111: the truncated value in a read-write register, nothing at a read-only or undefined address,
and no other register in any case. -/
def Obligations.RfWriteStoresTruncatedValueOrNothing : Prop :=
  ∀ rf : RegFile, rf.wf = true → ∀ v : Nat,
    (∀ r ∈ rf, r.desc.access = .rw →
      (rf.write r.desc.addr v).read r.desc.addr = some (BitVec.ofNat 24 (v % 2 ^ (8 * r.desc.width)), r.desc.width)) ∧
    (∀ r ∈ rf, r.desc.access = .ro → rf.write r.desc.addr v = rf) ∧
    (∀ a : RegAddr, a ∉ rf.dom → rf.write a v = rf) ∧
    (∀ a b : RegAddr, a ≠ b → (rf.write a v).lookup b = rf.lookup b)

/-- 40_register_file.md R112: every register, read-only or not, holds its declared reset value; idempotent. -/
def Obligations.RfResetRestoresEveryRegister : Prop :=
  ∀ rf : RegFile, rf.wf = true →
    (∀ r ∈ rf, ∃ v : RegValue, rf.reset.read r.desc.addr = some (v, r.desc.width) ∧ v.toNat = r.desc.reset) ∧
    rf.reset.regMap = rf.regMap ∧ rf.reset.reset = rf.reset

/-- 40_register_file.md R113: the least defined address above `a`, for defined and undefined `a` (the latter is D6). -/
def Obligations.RfNextIsTheLeastDefinedAddressAbove : Prop :=
  ∀ (rf : RegFile) (a : RegAddr),
    (∀ b : RegAddr, rf.next a = some b ↔ b ∈ rf.dom ∧ a < b ∧ ∀ c ∈ rf.dom, a < c → b ≤ c) ∧
    (rf.next a = none ↔ ∀ c ∈ rf.dom, ¬a < c)

/-- The law of 40_register_file.md R115, for both byte orders (`be` is D18, the write order is D7). -/
def Obligations.WithByteReplacesExactlyOneBusByte : Prop :=
  ∀ (v : RegValue) (w : Nat) (order : ByteOrder) (k : Nat) (b : Byte), w ≤ 3 → k < w →
    byteOf (withByte v w order k b) w order k = b ∧
    (∀ j : Nat, j < w → j ≠ k → byteOf (withByte v w order k b) w order j = byteOf v w order j) ∧
    (v.toNat < 2 ^ (8 * w) → (withByte v w order k b).toNat < 2 ^ (8 * w))

/-- 40_register_file.md R114, 20_memory.md R52: the bus bytes of a little-endian register, least significant first, are
its value. -/
def Obligations.LittleEndianBytesMakeUpTheValue : Prop :=
  ∀ (v : RegValue) (w : Nat), w ≤ 3 → v.toNat < 2 ^ (8 * w) →
    ((List.range w).map (fun k => (byteOf v w .le k).toNat * 2 ^ (8 * k))).sum = v.toNat

/-! ## Decoding -/

/-- Every well-formed instruction, encoded, decodes to itself with every operand, in every state in which the table
gives its row (30_encoding.md R80 to R88; for the byte that leaves a multi-read see log entry 5). -/
def Obligations.DecodeOfEncodeIsTheInstruction : Prop :=
  ∀ (i : Instr) (ctx : Context), i.wf = true → i.cond.holds ctx (dinField (encode i)) = true →
    decode ctx (encode i) = .ok i

/-- What the decoder gives is well formed, is an instruction of this state, and encodes to the word it came from but for
a `din` that 30_encoding.md R80 says is ignored. -/
def Obligations.EncodeOfDecodeIsTheWord : Prop :=
  ∀ (ctx : Context) (w : EventWord) (i : Instr), decode ctx w = .ok i →
    i.wf = true ∧ i.cond.holds ctx (dinField w) = true ∧ evField (encode i) = evField w ∧
    (evField w = 2#3 → encode i = w)

/-- The decoder and opcode_table.json agree: what is decoded is a row that takes the word in this state; a row that
takes the word is the one decoded, but that a command row met in `multi_read` gives way to SPI.DATA.MREAD.EXIT (log entry
5); and a word is refused exactly where no row takes it (30_encoding.md R82). -/
def Obligations.DecodeAgreesWithTheOpcodeTable : Prop :=
  ∀ (ctx : Context) (w : EventWord),
    (∀ i : Instr, decode ctx w = .ok i → ∃ r ∈ opcodeTable, r.mnemonic = i.mnemonic ∧ r.takes ctx w = true) ∧
    (∀ r ∈ opcodeTable, r.takes ctx w = true →
      ∃ i : Instr, decode ctx w = .ok i ∧
        (i.mnemonic = r.mnemonic ∨ (r.cond = .spiCommand ∧ i = .spiDataMreadExit (dinField w)))) ∧
    ((∃ why, decode ctx w = .error why) ↔ ∀ r ∈ opcodeTable, r.takes ctx w = false)

/-- A few words written out from the spec's encodings (30_encoding.md R81, R86; 95_test_vectors.md P1, P3). -/
def Obligations.WordsOfTheSpecDecodeAsItSays : Prop :=
  decode (.i2c .idle) 0b000_00000000#11 = .ok .i2cStartSend ∧
  decode (.i2c .addressing) 0b010_00000111#11 = .ok (.i2cWbytePtr 0x07#8) ∧
  decode (.i2c .writing) 0b010_00000101#11 = .ok (.i2cWbyteData 0x05#8) ∧
  decode (.i2c .reading) 0b011_00000000#11 = .ok .i2cRbyte ∧
  decode (.spi true .standby) 0b010_11_000111#11 = .ok (.spiCmdMread 0x07#6) ∧
  decode (.spi true .multiRead) 0b010_00000000#11 = .ok .spiDataMreadCont ∧
  decode (.spi true .write) 0b010_01011010#11 = .ok (.spiDataWrite 0x5A#8) ∧
  decode (.spi false .standby) 0b101_00000000#11 = .ok .reset

/-- 30_encoding.md R86: in standby, `b >> 6` selects the operation and the next mode, and `b & 0x3F` is the address. -/
def Obligations.SpiCommandByteSelectsOperationAndNextMode : Prop :=
  ∀ (s : State) (e : SpiState) (b : Byte) (rest : List EventWord),
    s.engine = .spi e → e.sel = true → e.mode = .standby → s.events = (Event.byteIn b).word :: rest →
    ((b >>> 6) = 0#8 → decode s.context (Event.byteIn b).word = .ok (.spiCmdWrite ((b &&& 0x3F#8).setWidth 6)) ∧
      ∃ t e', step s = .next t ∧ t.engine = .spi e' ∧ e'.mode = .write) ∧
    ((b >>> 6) = 1#8 → decode s.context (Event.byteIn b).word = .ok (.spiCmdNop01 ((b &&& 0x3F#8).setWidth 6)) ∧
      ∃ t e', step s = .next t ∧ t.engine = .spi e' ∧ e'.mode = .standby) ∧
    ((b >>> 6) = 2#8 → decode s.context (Event.byteIn b).word = .ok (.spiCmdRead ((b &&& 0x3F#8).setWidth 6)) ∧
      ∃ t e', step s = .next t ∧ t.engine = .spi e' ∧ e'.mode = .read) ∧
    ((b >>> 6) = 3#8 → decode s.context (Event.byteIn b).word = .ok (.spiCmdMread ((b &&& 0x3F#8).setWidth 6)) ∧
      ∃ t e', step s = .next t ∧ t.engine = .spi e' ∧ e'.mode = .multiRead)

/-! ## The step -/

/-- A step delivers the first word of the stream and runs what it decodes to in the present state; without a word the
block rests (00_scope.md R8; log entry 2). -/
def Obligations.StepRunsTheDecodedInstruction : Prop :=
  ∀ s : State,
    (∀ (w : EventWord) (rest : List EventWord) (i : Instr), s.events = w :: rest → decode s.context w = .ok i →
      step s = exec i { s with events := rest }) ∧
    (s.events = [] → step s = .next s)

/-- A step stops only on an event word without a meaning (30_encoding.md R82, D23), and always there, or where the
parameter `SPI_ADDR_WRAP = refuse` gives a continuation at address 63 none (42_spi_engine.md R194). "No condition stops
the block" (60_exceptions.md R227). -/
def Obligations.StepStopsOnlyOnMeaninglessWordsOrTheOpenWrap : Prop :=
  ∀ (s : State) (w : EventWord) (rest : List EventWord), s.events = w :: rest →
    ((∃ why, step s = .refused (.noMeaning why)) ↔
      (evField w = 6#3 ∨ evField w = 7#3 ∨ (s.engine.bus = .spi ∧ (evField w = 1#3 ∨ evField w = 3#3)))) ∧
    (∀ r : Refusal, step s = .refused r → (∃ why, r = .noMeaning why) ∨
      (r = .addrWrap ∧ s.params.spiAddrWrap = .refuse ∧
        ∃ e : SpiState, s.engine = .spi e ∧ e.mode = .multiRead ∧ e.address = 63#6)) ∧
    (∀ r : Fault, step s ≠ .fault r)

/-- A word of the opcode table, placed where `step` takes its next event, runs as the instruction `decodeTableWord`
gives: on the present state where that reads the same instruction, and on the engine put into the word's context where it
does not. Where `decodeTableWord` gives none, the step is refused. The state a word is read in is the model's choice, log
entry 4. -/
def Obligations.PlacedTableWordRunsItsInstruction : Prop :=
  ∀ (s : State) (nbits w : Nat),
    (∀ i : Instr, decodeTableWord nbits w = some i →
      (decode s.context (tableWord nbits w) = .ok i → step (s.withFetchWord nbits w) = exec i s) ∧
      (decode s.context (tableWord nbits w) ≠ .ok i →
        step (s.withFetchWord nbits w) =
          exec i { s with engine := s.engine.inContext s.params (tableContext (tableWord nbits w)) })) ∧
    (decodeTableWord nbits w = none → ∃ why, step (s.withFetchWord nbits w) = .refused (.noMeaning why))

/-! ## Construction and the whole machine -/

/-- A well-formed map gives the instance in the state of 10_state.md R35 (whose engine values are D4, D9, D11, D26), an
ill-formed one is refused (00_scope.md R6, D27). -/
def Obligations.ConstructionGivesTheResetTable : Prop :=
  ∀ (bus : Bus) (map : RegMap) (p : Params),
    (map.wf = false → State.construct bus map p = .error .illFormedMap) ∧
    (map.wf = true → ∃ s : State, State.construct bus map p = .ok s ∧ s.params = p ∧ s.regs.regMap = map ∧
      (∀ d ∈ map, ∃ v : RegValue, s.regs.read d.addr = some (v, d.width) ∧ v.toNat = d.reset) ∧
      (bus = .i2c → s.engine = .i2c { ptr := p.ptrReset, ptrEnd := false, cursor := 0#2, phase := .idle }) ∧
      (bus = .spi → s.engine = .spi { mode := .standby, address := p.spiAddrReset, sel := false }))

/-- The reset state of every instance is valid, that of `State.reset` among them (its `BUS` and `MAP` are log entry
1). -/
def Obligations.ResetStateIsValid : Prop :=
  (∀ (bus : Bus) (map : RegMap) (p : Params) (s : State), State.construct bus map p = .ok s → Valid s) ∧
  Valid State.reset

/-- From every valid state a step gives a valid state (20_memory.md R63, 10_state.md R20, R23, R26, R27; 60_exceptions.md
R227). -/
def Obligations.StepKeepsTheStateValid : Prop :=
  ∀ s t : State, Valid s → step s = .next t → Valid t

/-- What is fixed for the life of an instance: its parameters, its `BUS` (00_scope.md R5) and its `MAP`
(10_state.md R22). -/
def Obligations.StepNeverChangesTheConfiguration : Prop :=
  ∀ s t : State, step s = .next t →
    t.params = s.params ∧ t.engine.bus = s.engine.bus ∧ t.regs.regMap = s.regs.regMap

/-- 10_state.md R22: no event changes a register's attributes; a value is created at the reset value, and changes only by
the write path, on a read-write register, or back to the reset value by RESET, which always restores it. -/
def Obligations.RegisterValueChangesOnlyByWriteOrReset : Prop :=
  (∀ d : Descriptor, (Register.fresh d).desc = d ∧ (Register.fresh d).value = d.resetValue) ∧
  ∀ (s t : State) (a : RegAddr) (r : Register), step s = .next t → s.regs.lookup a = some r →
    ∃ r' : Register, t.regs.lookup a = some r' ∧ r'.desc = r.desc ∧
      ((r'.value = r.value ∧ nextEvent s ≠ some .reset) ∨
        (nextEvent s = some .reset ∧ r'.value = r.desc.resetValue) ∨
        (r.desc.access = .rw ∧ ∃ b : Byte, nextEvent s = some (.byteIn b) ∧
          ((∃ e : I2cState, s.engine = .i2c e ∧ e.phase = .writing ∧ e.ptrEnd = false ∧ e.ptr = a) ∨
            (∃ e : SpiState, s.engine = .spi e ∧ e.sel = true ∧ e.mode = .write ∧ e.address.setWidth 8 = a))))

/-- No sequence of events changes a read-only register: it holds its reset value in every state of every run
(10_state.md R23, 95_test_vectors.md V-RST-3). -/
def Obligations.NoRunChangesAReadOnlyRegister : Prop :=
  ∀ (n : Nat) (s t : State) (rs : List Response) (a : RegAddr) (r : Register), s.regs.roHeld = true →
    runTrace n s = some (rs, t) → s.regs.lookup a = some r → r.desc.access = .ro →
    t.regs.lookup a = some r ∧ r.value = r.desc.resetValue

/-- No register content steers the engine (20_memory.md R61): instances that differ only in register values do the same,
answer with a byte at the same steps, and differ in nothing but register values and data bytes after. (Both draw the same
free address at 63: log entry 3.) -/
def Obligations.RegisterContentsNeverSteerTheEngine : Prop :=
  ∀ s t : State, SameButValues s t →
    match step s, step t with
    | .next s', .next t' =>
      SameButValues s' t' ∧
        (s.events ≠ [] → s'.resp.ack = t'.resp.ack ∧ s'.resp.err = t'.resp.err ∧
          s'.resp.dout.isSome = t'.resp.dout.isSome)
    | .refused r, .refused r' => r = r'
    | _, _ => False

/-! ## RESET -/

/-- RESET completes in every state, on either bus: every register at its reset value, every piece of engine state as
10_state.md R35 says (D9, D20), nothing answered. -/
def Obligations.ResetEventForcesEverythingToDefaults : Prop :=
  ∀ s : State, ∃ t : State, exec .reset s = .next t ∧
    t = { s with regs := t.regs, engine := t.engine, resp := ⟨none, none, false⟩ } ∧
    (∀ a : RegAddr, t.regs.lookup a = (s.regs.lookup a).map (fun r => { r with value := r.desc.resetValue })) ∧
    (∀ e : I2cState, s.engine = .i2c e →
      t.engine = .i2c { ptr := s.params.ptrReset, ptrEnd := false, cursor := 0#2, phase := .idle }) ∧
    (∀ e : SpiState, s.engine = .spi e →
      t.engine = .spi { mode := .standby, address := s.params.spiAddrReset, sel := false })

/-- 70_reset_and_hazards.md R252: a second RESET changes nothing, and the block's state after RESET does not depend on
its state before. (The host's stream and the count of free values are not the block's: log entries 2 and 3.) -/
def Obligations.ResetIsIdempotentAndForgetsTheState : Prop :=
  (∀ s t : State, exec .reset s = .next t → exec .reset t = .next t) ∧
  (∀ s s' t t' : State, s.params = s'.params → s.engine.bus = s'.engine.bus → s.regs.regMap = s'.regs.regMap →
    exec .reset s = .next t → exec .reset s' = .next t' →
    t.regs = t'.regs ∧ t.engine = t'.engine ∧ t.resp = t'.resp)

/-! ## The I2C engine -/

/-- I2C.START.SEND, I2C.START.RECV and I2C.STOP complete in every phase; only `cursor`, `phase` and the response change
(41_i2c_engine.md R141, R142, R147; D2, D3, D28). -/
def Obligations.I2cStartsAndStopKeepPointerAndRegisters : Prop :=
  ∀ (s : State) (e : I2cState), s.engine = .i2c e →
    exec .i2cStartSend s =
      .next { s with engine := .i2c { e with cursor := 0#2, phase := .addressing }, resp := ⟨none, none, false⟩ } ∧
    exec .i2cStartRecv s =
      .next { s with engine := .i2c { e with cursor := 0#2, phase := .reading }, resp := ⟨none, none, false⟩ } ∧
    exec .i2cStop s =
      .next { s with engine := .i2c { e with cursor := 0#2, phase := .idle }, resp := ⟨none, none, false⟩ }

/-- I2C.WBYTE.PTR accepts every byte as the pointer and clears `ptr_end` (41_i2c_engine.md R143; `ptr_end` is D4). -/
def Obligations.I2cPointerByteLoadsThePointer : Prop :=
  ∀ (s : State) (e : I2cState) (b : Byte), s.engine = .i2c e →
    exec (.i2cWbytePtr b) s =
      .next { s with
        engine := .i2c { ptr := b, ptrEnd := false, cursor := 0#2, phase := .writing }
        resp := ⟨none, some .ack, false⟩ }

/-- I2C.WBYTE.DATA at a defined pointer (41_i2c_engine.md R144; byte order D7): bus byte `cursor` of that register
becomes the byte if it is read-write, nothing is stored if it is read-only; every other byte and every other register is
unchanged; the byte counts in either case; it is accepted. -/
def Obligations.I2cDataByteReplacesTheCursorByte : Prop :=
  ∀ (s : State) (e : I2cState) (r : Register) (b : Byte), s.engine = .i2c e → e.ptrEnd = false →
    s.regs.wf = true → s.regs.lookup e.ptr = some r → e.cursor.toNat < r.desc.width →
    ∃ (t : State) (e' : I2cState) (r' : Register), exec (.i2cWbyteData b) s = .next t ∧
      t = { s with regs := t.regs, engine := .i2c e', resp := ⟨none, some .ack, false⟩ } ∧
      AfterByte s.regs r.desc.width e e' ∧
      (∀ a : RegAddr, a ≠ e.ptr → t.regs.lookup a = s.regs.lookup a) ∧
      t.regs.lookup e.ptr = some r' ∧ r'.desc = r.desc ∧
      (r.desc.access = .ro → r'.value = r.value) ∧
      (r.desc.access = .rw → ∀ k : Nat, k < r.desc.width →
        byteOf r'.value r.desc.width r.desc.order k =
          if k = e.cursor.toNat then b else byteOf r.value r.desc.width r.desc.order k)

/-- I2C.WBYTE.DATA where there is no register to write (41_i2c_engine.md R144, R153): past the end of the map the byte is
accepted and nothing else changes (D4); at an undefined pointer one byte is accepted and discarded and the pointer moves
on as after a register of width 1 (D5). -/
def Obligations.I2cDataByteWithoutRegisterIsDiscarded : Prop :=
  ∀ (s : State) (e : I2cState) (b : Byte), s.engine = .i2c e →
    (e.ptrEnd = true → exec (.i2cWbyteData b) s = .next { s with resp := ⟨none, some .ack, false⟩ }) ∧
    (e.ptrEnd = false → s.regs.lookup e.ptr = none → e.cursor = 0#2 →
      ∃ e' : I2cState, AfterByte s.regs 1 e e' ∧
        exec (.i2cWbyteData b) s = .next { s with engine := .i2c e', resp := ⟨none, some .ack, false⟩ })

/-- I2C.RBYTE at a defined pointer answers bus byte `cursor` of that register, whatever its access mode, and changes no
register (41_i2c_engine.md R146, 20_memory.md R57). -/
def Obligations.I2cReadRequestAnswersTheCursorByte : Prop :=
  ∀ (s : State) (e : I2cState) (r : Register), s.engine = .i2c e → e.ptrEnd = false →
    s.regs.lookup e.ptr = some r → e.cursor.toNat < r.desc.width → r.desc.width ≤ 3 →
    ∃ e' : I2cState, AfterByte s.regs r.desc.width e e' ∧
      exec .i2cRbyte s =
        .next { s with
          engine := .i2c e'
          resp := ⟨some (byteOf r.value r.desc.width r.desc.order e.cursor.toNat), none, false⟩ }

/-- I2C.RBYTE where there is no register to read answers the filler (41_i2c_engine.md R146, R153): past the end of the
map for ever, nothing changing (D4); at an undefined pointer once, the pointer moving on (D5). -/
def Obligations.I2cReadRequestWithoutRegisterAnswersFiller : Prop :=
  ∀ (s : State) (e : I2cState), s.engine = .i2c e →
    (e.ptrEnd = true → exec .i2cRbyte s = .next { s with resp := ⟨some s.params.i2cFiller, none, false⟩ }) ∧
    (e.ptrEnd = false → s.regs.lookup e.ptr = none → e.cursor = 0#2 →
      ∃ e' : I2cState, AfterByte s.regs 1 e e' ∧
        exec .i2cRbyte s = .next { s with engine := .i2c e', resp := ⟨some s.params.i2cFiller, none, false⟩ })

/-- I2C.WBYTE.BAD and I2C.RBYTE.BAD: their effect is to raise `MalformedSequence` (41_i2c_engine.md R148, R149;
60_exceptions.md R223; D10): idle, pointer and registers kept, `NACK` or the filler, `err`. -/
def Obligations.I2cMalformedEventsForceIdle : Prop :=
  ∀ (s : State) (e : I2cState) (b : Byte), s.engine = .i2c e →
    exec (.i2cWbyteBad b) s =
      .next { s with engine := .i2c { e with cursor := 0#2, phase := .idle }, resp := ⟨none, some .nack, true⟩ } ∧
    exec .i2cRbyteBad s =
      .next { s with
        engine := .i2c { e with cursor := 0#2, phase := .idle }
        resp := ⟨some s.params.i2cFiller, none, true⟩ }

/-- The state machine of 41_i2c_engine.md R140: `phase` after every event in every phase (the starts outside idle are D3,
the malformed cells but one D10). -/
def Obligations.I2cPhaseTransitionsAreTheTable : Prop :=
  ∀ (s t : State) (e e' : I2cState) (ev : Event), s.engine = .i2c e → nextEvent s = some ev → step s = .next t →
    t.engine = .i2c e' →
    e'.phase =
      match ev, e.phase with
      | .start, _ => .addressing
      | .startRecv, _ => .reading
      | .byteIn _, .addressing => .writing
      | .byteIn _, .writing => .writing
      | .byteIn _, .idle => .idle
      | .byteIn _, .reading => .idle
      | .byteOutReq, .reading => .reading
      | .byteOutReq, .idle => .idle
      | .byteOutReq, .addressing => .idle
      | .byteOutReq, .writing => .idle
      | .stop, _ => .idle
      | .reset, _ => .idle

/-- 10_state.md R25: `ptr` is loaded by the first byte of a send transaction, advanced by auto-increment, set to
`PTR_RESET` by RESET, and changed by nothing else. Each of the three happens whenever its event does; auto-increment, at
the last byte of a register with another one above it (41_i2c_engine.md R145), and at no other byte. -/
def Obligations.PointerChangesOnlyByLoadAdvanceOrReset : Prop :=
  ∀ (s t : State) (e : I2cState), s.regs.wf = true → s.engine = .i2c e → step s = .next t →
    ∃ e' : I2cState, t.engine = .i2c e' ∧
      ((∃ b : Byte, nextEvent s = some (.byteIn b) ∧ e.phase = .addressing ∧ e'.ptr = b) ∨
        (nextEvent s = some .reset ∧ e'.ptr = s.params.ptrReset) ∨
        (TransfersLastByte s e ∧ s.regs.next e.ptr = some e'.ptr) ∨
        (e'.ptr = e.ptr ∧ nextEvent s ≠ some .reset ∧
          (∀ b : Byte, nextEvent s = some (.byteIn b) → e.phase ≠ .addressing) ∧
          (TransfersLastByte s e → s.regs.next e.ptr = none)))

/-- The exhausted condition lasts, with pointer and registers unchanged, until a pointer byte or RESET, and every read
meanwhile answers the filler (10_state.md R26, 70_reset_and_hazards.md R258; D4). -/
def Obligations.ExhaustionLastsUntilPointerLoadOrReset : Prop :=
  ∀ (s t : State) (e : I2cState), s.engine = .i2c e → e.ptrEnd = true → step s = .next t →
    nextEvent s ≠ some .reset → (∀ b : Byte, nextEvent s = some (.byteIn b) → e.phase ≠ .addressing) →
    t.regs = s.regs ∧
    (∃ e' : I2cState, t.engine = .i2c e' ∧ e'.ptrEnd = true ∧ e'.ptr = e.ptr) ∧
    (nextEvent s = some .byteOutReq → t.resp.dout = some s.params.i2cFiller)

/-- 41_i2c_engine.md R152: a byte of an open send transaction is always acknowledged and a request in a receive
transaction always answered by a byte, whatever the address, the access mode or `ptr_end`, and the transaction stays open;
at an undefined address the byte changes no register and the answer is the filler; `NACK` is the answer to a malformed
byte only. -/
def Obligations.I2cEngineNeverAbortsATransaction : Prop :=
  ∀ (s : State) (e : I2cState), s.engine = .i2c e →
    (∀ b : Byte, nextEvent s = some (.byteIn b) → e.phase = .addressing ∨ e.phase = .writing →
      ∃ (t : State) (e' : I2cState), step s = .next t ∧ t.resp = ⟨none, some .ack, false⟩ ∧
        t.engine = .i2c e' ∧ e'.phase = .writing ∧ (s.regs.lookup e.ptr = none → t.regs = s.regs)) ∧
    (nextEvent s = some .byteOutReq → e.phase = .reading →
      ∃ (t : State) (e' : I2cState) (d : Byte), step s = .next t ∧ t.resp = ⟨some d, none, false⟩ ∧
        t.engine = .i2c e' ∧ e'.phase = .reading ∧ (s.regs.lookup e.ptr = none → d = s.params.i2cFiller)) ∧
    (∀ (t : State) (ev : Event), nextEvent s = some ev → step s = .next t → t.resp.ack = some .nack →
      (∃ b : Byte, ev = .byteIn b) ∧ (e.phase = .idle ∨ e.phase = .reading))

/-! ## MalformedSequence -/

/-- The condition is reported exactly for the pairs of event and state of 60_exceptions.md R222 (all but the source's one
example are D10, D11). -/
def Obligations.ErrIsReportedExactlyForMalformedPairs : Prop :=
  ∀ (s t : State) (ev : Event), nextEvent s = some ev → step s = .next t →
    (t.resp.err = true ↔ MalformedPair s.engine ev)

/-- A malformed event forces the transient state to idle or standby and changes nothing else, and the machine goes on
(60_exceptions.md R223, R224, R227; D10, D11). -/
def Obligations.MalformedEventChangesOnlyTransientState : Prop :=
  ∀ (s : State) (w : EventWord) (rest : List EventWord) (ev : Event), s.events = w :: rest →
    Event.ofWord w = some ev → MalformedPair s.engine ev →
    ∃ t : State, step s = .next t ∧ t = { s with engine := t.engine, resp := t.resp, events := rest } ∧
      t.resp.err = true ∧
      (∀ e : I2cState, s.engine = .i2c e → t.engine = .i2c { e with cursor := 0#2, phase := .idle }) ∧
      (∀ e : SpiState, s.engine = .spi e → t.engine = .spi { e with mode := .standby })

/-! ## The SPI engine -/

/-- SPI.SELECT and SPI.DESELECT complete in every state (42_spi_engine.md R181, R191; D11, D12). -/
def Obligations.SpiSelectAndDeselectOpenAndCloseTheWindow : Prop :=
  ∀ (s : State) (e : SpiState), s.engine = .spi e →
    exec .spiSelect s =
      .next { s with engine := .spi { e with sel := true, mode := .standby }, resp := ⟨none, none, false⟩ } ∧
    exec .spiDeselect s =
      .next { s with engine := .spi { e with sel := false, mode := .standby }, resp := ⟨none, none, false⟩ }

/-- 42_spi_engine.md R183, R185, R186: a command byte stores its address, enters its mode and answers `0x00`; its word is
`0x200`, `0x280` or `0x2C0` with the address, met in standby, or in multi-read if the byte is not `0x00`. -/
def Obligations.SpiCommandsStoreAddressAndEnterMode : Prop :=
  ∀ (s : State) (e : SpiState) (a : SpiAddr), s.engine = .spi e →
    exec (.spiCmdWrite a) s =
      .next { s with engine := .spi { e with address := a, mode := .write }, resp := ⟨some 0x00#8, none, false⟩ } ∧
    exec (.spiCmdRead a) s =
      .next { s with engine := .spi { e with address := a, mode := .read }, resp := ⟨some 0x00#8, none, false⟩ } ∧
    exec (.spiCmdMread a) s =
      .next { s with engine := .spi { e with address := a, mode := .multiRead }, resp := ⟨some 0x00#8, none, false⟩ } ∧
    ∀ rest : List EventWord, e.sel = true → e.mode = .standby ∨ e.mode = .multiRead →
      (s.events = (0x200#11 ||| a.setWidth 11) :: rest → (e.mode = .multiRead → a ≠ 0#6) →
        step s = exec (.spiCmdWrite a) { s with events := rest }) ∧
      (s.events = (0x280#11 ||| a.setWidth 11) :: rest → step s = exec (.spiCmdRead a) { s with events := rest }) ∧
      (s.events = (0x2C0#11 ||| a.setWidth 11) :: rest → step s = exec (.spiCmdMread a) { s with events := rest })

/-- SPI.CMD.NOP01 goes to standby, keeps the address (D13) and answers `0x00` (42_spi_engine.md R184). -/
def Obligations.SpiCommand01IsANoOp : Prop :=
  ∀ (s : State) (e : SpiState) (a : SpiAddr), s.engine = .spi e →
    exec (.spiCmdNop01 a) s =
      .next { s with engine := .spi { e with mode := .standby }, resp := ⟨some 0x00#8, none, false⟩ }

/-- 42_spi_engine.md R187: whatever the incoming byte, the answer is `spi_read(address)`, `0x00` at an undefined address;
then standby; nothing else changes. Its word is `0x200` with the byte, met in mode `read` inside the window. -/
def Obligations.SpiDataReadAnswersTheRegister : Prop :=
  ∀ (s : State) (e : SpiState) (b : Byte), s.engine = .spi e →
    exec (.spiDataRead b) s =
      .next { s with engine := .spi { e with mode := .standby }, resp := ⟨some (spiRead s.regs e.address), none, false⟩ } ∧
    (s.regs.lookup (e.address.setWidth 8) = none → spiRead s.regs e.address = 0x00#8) ∧
    (∀ rest : List EventWord, e.sel = true → e.mode = .read → s.events = (0x200#11 ||| b.setWidth 11) :: rest →
      step s = exec (.spiDataRead b) { s with events := rest })

/-- `spi_read(a)` is the value of a one-byte register (42_spi_engine.md R193), and lane 0 of a wider one (D15). -/
def Obligations.SpiReadIsTheLowestByte : Prop :=
  ∀ (rf : RegFile) (a : SpiAddr) (r : Register), rf.wf = true → rf.lookup (a.setWidth 8) = some r →
    (spiRead rf a).toNat = r.value.toNat % 256 ∧ (r.desc.width = 1 → (spiRead rf a).toNat = r.value.toNat)

/-- SPI.DATA.WRITE (42_spi_engine.md R190): the register at `address` gets the byte, its upper lanes 0 (D15), if it is
read-write; a read-only or undefined address is ignored; the answer is `0x00` (D14); then standby. -/
def Obligations.SpiDataWriteStoresTheByte : Prop :=
  ∀ (s : State) (e : SpiState) (b : Byte), s.engine = .spi e → s.regs.wf = true →
    ∃ t : State, exec (.spiDataWrite b) s = .next t ∧
      t = { s with
        regs := t.regs
        engine := .spi { e with mode := .standby }
        resp := ⟨some 0x00#8, none, false⟩ } ∧
      (∀ a : RegAddr, a ≠ e.address.setWidth 8 → t.regs.lookup a = s.regs.lookup a) ∧
      (s.regs.lookup (e.address.setWidth 8) = none → t.regs = s.regs) ∧
      (∀ r : Register, s.regs.lookup (e.address.setWidth 8) = some r →
        (r.desc.access = .ro → t.regs = s.regs) ∧
        (r.desc.access = .rw →
          t.regs.lookup (e.address.setWidth 8) = some { r with value := b.setWidth 24 }))

/-- SPI.DATA.MREAD.CONT below address 63 answers the register, adds 1 to the address, through undefined addresses too, and
stays in the mode (42_spi_engine.md R188, R194). -/
def Obligations.SpiContinuationReadsAndIncrements : Prop :=
  ∀ (s : State) (e : SpiState), s.engine = .spi e → e.address.toNat < 63 →
    ∃ a : SpiAddr, a.toNat = e.address.toNat + 1 ∧
      exec .spiDataMreadCont s =
        .next { s with engine := .spi { e with address := a }, resp := ⟨some (spiRead s.regs e.address), none, false⟩ }

/-- SPI.DATA.MREAD.CONT at address 63, for the three values of the open parameter `SPI_ADDR_WRAP` (42_spi_engine.md R194,
D17): with `any` it completes with a free 6-bit address, whatever that is (log entry 3); with `wrap0` the address is 0;
with `refuse` the step has no meaning. The byte answered is defined. -/
def Obligations.SpiContinuationAtTheLastAddress : Prop :=
  ∀ (s : State) (e : SpiState), s.engine = .spi e → e.address = 63#6 →
    (s.params.spiAddrWrap = .any →
      exec .spiDataMreadCont s =
        .next { s with
          engine := .spi { e with address := Config.freeAddress s.draws }
          resp := ⟨some (spiRead s.regs 63#6), none, false⟩
          draws := s.draws + 1 }) ∧
    (s.params.spiAddrWrap = .wrap0 →
      exec .spiDataMreadCont s =
        .next { s with engine := .spi { e with address := 0#6 }, resp := ⟨some (spiRead s.regs 63#6), none, false⟩ }) ∧
    (s.params.spiAddrWrap = .refuse → exec .spiDataMreadCont s = .refused .addrWrap)

/-- SPI.DATA.MREAD.EXIT is the standby processing of its byte in the same exchange: no register is emitted, nothing is
incremented (42_spi_engine.md R189; D16; `op = 01` D13). It says so of `0x00` too, which is no exit byte (R87, R189) and
never decoded as one: what `exec` does with that operand is the model's choice, log entry 20. -/
def Obligations.SpiExitByteIsACommandInTheSameExchange : Prop :=
  ∀ (s : State) (e : SpiState) (b : Byte), s.engine = .spi e →
    exec (.spiDataMreadExit b) s = exec (decodeCommand b) s ∧
    ∃ e' : SpiState,
      exec (.spiDataMreadExit b) s = .next { s with engine := .spi e', resp := ⟨some 0x00#8, none, false⟩ } ∧
      e'.sel = e.sel ∧
      ((b >>> 6) = 0#8 → e'.mode = .write ∧ e'.address = (b &&& 0x3F#8).setWidth 6) ∧
      ((b >>> 6) = 1#8 → e'.mode = .standby ∧ e'.address = e.address) ∧
      ((b >>> 6) = 2#8 → e'.mode = .read ∧ e'.address = (b &&& 0x3F#8).setWidth 6) ∧
      ((b >>> 6) = 3#8 → e'.mode = .multiRead ∧ e'.address = (b &&& 0x3F#8).setWidth 6)

/-- SPI.XFER.BAD: its effect is to raise `MalformedSequence` (42_spi_engine.md R192, 60_exceptions.md R223; D11). -/
def Obligations.SpiExchangeOutsideTheWindowIsMalformed : Prop :=
  ∀ (s : State) (e : SpiState) (b : Byte), s.engine = .spi e →
    exec (.spiXferBad b) s =
      .next { s with engine := .spi { e with mode := .standby }, resp := ⟨some 0x00#8, none, true⟩ }

/-- The transition table of 42_spi_engine.md R180 with the select window around it (D11, D12): `mode` after every event in
every state, so that it returns to standby exactly where R195 (d) says. -/
def Obligations.SpiModeTransitionsAreTheTable : Prop :=
  ∀ (s t : State) (e e' : SpiState) (ev : Event), s.engine = .spi e → nextEvent s = some ev → step s = .next t →
    t.engine = .spi e' →
    e'.mode =
      match ev with
      | .byteIn b =>
        if e.sel = false ∨ e.mode = .read ∨ e.mode = .write then .standby
        else if e.mode = .multiRead ∧ b = 0x00#8 then .multiRead
        else if (b >>> 6) = 0#8 then .write
        else if (b >>> 6) = 1#8 then .standby
        else if (b >>> 6) = 2#8 then .read
        else .multiRead
      | _ => .standby

/-- 42_spi_engine.md R195 (c): an exchange inside the window answers `0x00` unless it is a data exchange of a read or of a
continued multi-read, which answers the register at `address` (R187, R188; for a write exchange D14). -/
def Obligations.SpiAnswersZeroButForReadData : Prop :=
  ∀ (s t : State) (e : SpiState) (b : Byte), s.engine = .spi e → e.sel = true → nextEvent s = some (.byteIn b) →
    step s = .next t →
    t.resp =
      ⟨some (if e.mode = .read ∨ (e.mode = .multiRead ∧ b = 0x00#8) then spiRead s.regs e.address else 0x00#8), none,
        false⟩

/-- `address` is loaded by a command with operation 00, 10 or 11, incremented by a continuation, set to `SPI_ADDR_RESET`
by RESET, and changed by nothing else (10_state.md R30; at 63 the free value of R194). -/
def Obligations.SpiAddressChangesOnlyByCommandContinuationOrReset : Prop :=
  ∀ (s t : State) (e : SpiState), s.engine = .spi e → step s = .next t →
    ∃ e' : SpiState, t.engine = .spi e' ∧
      (e'.address = e.address ∨
        (nextEvent s = some .reset ∧ e'.address = s.params.spiAddrReset) ∨
        (∃ b : Byte, nextEvent s = some (.byteIn b) ∧ e.sel = true ∧
          ((e.mode = .standby ∨ (e.mode = .multiRead ∧ b ≠ 0x00#8)) ∧ (b >>> 6) ≠ 1#8 ∧
            e'.address = (b &&& 0x3F#8).setWidth 6)) ∨
        (nextEvent s = some (.byteIn 0x00#8) ∧ e.sel = true ∧ e.mode = .multiRead ∧
          (e.address = 63#6 ∨ e'.address.toNat = e.address.toNat + 1)))

/-- In standby the value of `address` cannot be seen on the bus (10_state.md R30): with any other value the step does and
answers the same, and the states after are again equal or differ in it alone, still in standby. -/
def Obligations.SpiAddressIsInvisibleInStandby : Prop :=
  ∀ (s t : State) (e : SpiState) (a : SpiAddr), s.engine = .spi e → e.mode = .standby → step s = .next t →
    ∃ u : State, step { s with engine := .spi { e with address := a } } = .next u ∧
      u.resp = t.resp ∧ u.regs = t.regs ∧ u.draws = t.draws ∧ u.events = t.events ∧
      (u.engine = t.engine ∨
        ∃ f : SpiState, f.mode = .standby ∧ t.engine = .spi f ∧ u.engine = .spi { f with address := a })

/-! ## Transactions -/

/-- The burst property of 41_i2c_engine.md R150 (E3, with D3 for a start inside a transaction, D4 and D5 past the
map and at undefined addresses): a receive transaction of `n` requests answers the first `n` bytes of `S(ptr, ptr_end)`,
changes no register, reports no error, and stands after them where the stream goes on. -/
def Obligations.I2cReadBurstIsTheRegisterStream : Prop :=
  ∀ (s : State) (e : I2cState) (n : Nat) (rest : List EventWord), s.regs.wf = true → s.engine = .i2c e →
    s.events = Event.startRecv.word :: (List.replicate n Event.byteOutReq.word ++ rest) →
    ∃ (t : State) (e' : I2cState),
      runTrace (n + 1) s =
        some
          (⟨none, none, false⟩ ::
              (streamBytes s.regs s.params.i2cFiller e.ptr e.ptrEnd 0 n).map (fun b => ⟨some b, none, false⟩),
            t) ∧
      t.regs = s.regs ∧ t.events = rest ∧ t.engine = .i2c e' ∧ e'.phase = .reading ∧
      (streamBytes s.regs s.params.i2cFiller e.ptr e.ptrEnd 0 n).length = n ∧
      ∀ m : Nat,
        streamBytes s.regs s.params.i2cFiller e.ptr e.ptrEnd 0 (n + m) =
          streamBytes s.regs s.params.i2cFiller e.ptr e.ptrEnd 0 n ++
            streamBytes s.regs s.params.i2cFiller e'.ptr e'.ptrEnd e'.cursor.toNat m

/-- `I2C.READAT a, n` reads from register `a`, whatever the engine was doing before (30_encoding.md R92, 41_i2c_engine.md
R151; D3). -/
def Obligations.I2cReadatReadsFromTheGivenAddress : Prop :=
  ∀ (s : State) (e : I2cState) (a : Byte) (n : Nat) (rest : List EventWord), s.regs.wf = true → s.engine = .i2c e →
    s.events = i2cReadat a n ++ rest →
    ∃ (t : State) (rs : List Response), runTrace (n + 5) s = some (rs, t) ∧
      rs.filterMap Response.dout = streamBytes s.regs s.params.i2cFiller a false 0 n ∧
      (∀ r ∈ rs, r.err = false) ∧ t.regs = s.regs ∧ t.events = rest

/-- `I2C.WRITE a` with as many bytes as a read-write register has (30_encoding.md R92, 41_i2c_engine.md R144, R151): every
byte is acknowledged, the register's bus bytes are the bytes sent, no other register changes, and the pointer stands at
the next register or is exhausted (D3, D4, D7). Read-only and undefined destinations are in
I2cDataByteReplacesTheCursorByte and I2cDataByteWithoutRegisterIsDiscarded. -/
def Obligations.I2cWriteTransactionFillsTheRegister : Prop :=
  ∀ (s : State) (e : I2cState) (a : Byte) (r : Register) (bs : List Byte) (rest : List EventWord), s.regs.wf = true →
    s.engine = .i2c e → s.regs.lookup a = some r → r.desc.access = .rw → bs.length = r.desc.width →
    s.events = i2cWrite a bs ++ rest →
    ∃ (t : State) (r' : Register),
      runTrace (bs.length + 3) s =
        some (⟨none, none, false⟩ :: (List.replicate (bs.length + 1) ⟨none, some .ack, false⟩ ++ [⟨none, none, false⟩]), t) ∧
      t.events = rest ∧ t.regs.lookup a = some r' ∧ r'.desc = r.desc ∧
      (List.range r.desc.width).map (fun k => byteOf r'.value r.desc.width r.desc.order k) = bs ∧
      (∀ b : RegAddr, b ≠ a → t.regs.lookup b = s.regs.lookup b) ∧
      t.engine = .i2c
        { ptr := (s.regs.next a).getD a, ptrEnd := (s.regs.next a).isNone, cursor := 0#2, phase := .idle }

/-- `SPI.MRD a, n` inside a window (30_encoding.md R92, 42_spi_engine.md R195 (b)): the command answers `0x00`, the `n`
continuations the registers at `a`, `a+1`, …; below the open wrap (R194) the mode and the address are as the rule says.
The answer to a command met in multi-read is D16; a continuation at 63 is in SpiContinuationAtTheLastAddress. -/
def Obligations.SpiMultiReadStreamsConsecutiveAddresses : Prop :=
  ∀ (s : State) (e : SpiState) (a : SpiAddr) (n : Nat) (rest : List EventWord), s.engine = .spi e → e.sel = true →
    e.mode = .standby ∨ e.mode = .multiRead → s.events = spiMrd a n ++ rest → a.toNat + n ≤ 63 →
    runTrace (n + 1) s =
      some
        (⟨some 0x00#8, none, false⟩ ::
            (List.range n).map (fun k => ⟨some (spiRead s.regs (BitVec.ofNat 6 (a.toNat + k))), none, false⟩),
          { s with
            engine := .spi { e with mode := .multiRead, address := BitVec.ofNat 6 (a.toNat + n) }
            events := rest
            resp := ⟨some (if n = 0 then 0x00#8 else spiRead s.regs (BitVec.ofNat 6 (a.toNat + n - 1))), none, false⟩ })

/-- `SPI.WR a, bb` then `SPI.RD a` inside a window: the byte written is read back from a read-write register, and a
read-only or undefined address reads as before (30_encoding.md R92, 42_spi_engine.md R183 to R190, 20_memory.md R61;
D14, D15). -/
def Obligations.SpiWriteThenReadReturnsTheByte : Prop :=
  ∀ (s : State) (e : SpiState) (a : SpiAddr) (bb xx : Byte) (rest : List EventWord), s.regs.wf = true →
    s.engine = .spi e → e.sel = true → e.mode = .standby → s.events = spiWr a bb ++ (spiRd a xx ++ rest) →
    ∃ (t : State) (d : Byte),
      runTrace 4 s =
        some ([⟨some 0x00#8, none, false⟩, ⟨some 0x00#8, none, false⟩, ⟨some 0x00#8, none, false⟩, ⟨some d, none, false⟩], t) ∧
      t.events = rest ∧ t.engine = .spi { e with mode := .standby, address := a } ∧
      (∀ r : Register, s.regs.lookup (a.setWidth 8) = some r → r.desc.access = .rw → d = bb) ∧
      ((s.regs.lookup (a.setWidth 8) = none ∨ ∃ r : Register, s.regs.lookup (a.setWidth 8) = some r ∧ r.desc.access = .ro) →
        d = spiRead s.regs a ∧ t.regs = s.regs)
end

