-- ==== Sys2Proof/Laws/State.lean ====
section
/-! SUPPORT. One lemma per field per state update, and the response bits. -/

namespace Sys2Proof.Machine

variable (s : State)

@[simp] theorem State.setEngine_params (g : Engine) : (s.setEngine g).params = s.params := rfl
@[simp] theorem State.setEngine_regs (g : Engine) : (s.setEngine g).regs = s.regs := rfl
@[simp] theorem State.setEngine_engine (g : Engine) : (s.setEngine g).engine = g := rfl
@[simp] theorem State.setEngine_events (g : Engine) : (s.setEngine g).events = s.events := rfl
@[simp] theorem State.setEngine_resp (g : Engine) : (s.setEngine g).resp = s.resp := rfl
@[simp] theorem State.setEngine_draws (g : Engine) : (s.setEngine g).draws = s.draws := rfl

@[simp] theorem State.setRegs_params (rf : RegFile) : (s.setRegs rf).params = s.params := rfl
@[simp] theorem State.setRegs_regs (rf : RegFile) : (s.setRegs rf).regs = rf := rfl
@[simp] theorem State.setRegs_engine (rf : RegFile) : (s.setRegs rf).engine = s.engine := rfl
@[simp] theorem State.setRegs_events (rf : RegFile) : (s.setRegs rf).events = s.events := rfl
@[simp] theorem State.setRegs_resp (rf : RegFile) : (s.setRegs rf).resp = s.resp := rfl
@[simp] theorem State.setRegs_draws (rf : RegFile) : (s.setRegs rf).draws = s.draws := rfl

@[simp] theorem State.setEvents_params (ws : List EventWord) : (s.setEvents ws).params = s.params := rfl
@[simp] theorem State.setEvents_regs (ws : List EventWord) : (s.setEvents ws).regs = s.regs := rfl
@[simp] theorem State.setEvents_engine (ws : List EventWord) : (s.setEvents ws).engine = s.engine := rfl
@[simp] theorem State.setEvents_events (ws : List EventWord) : (s.setEvents ws).events = ws := rfl
@[simp] theorem State.setEvents_resp (ws : List EventWord) : (s.setEvents ws).resp = s.resp := rfl
@[simp] theorem State.setEvents_draws (ws : List EventWord) : (s.setEvents ws).draws = s.draws := rfl

@[simp] theorem State.answer_params (r : Response) : (s.answer r).params = s.params := rfl
@[simp] theorem State.answer_regs (r : Response) : (s.answer r).regs = s.regs := rfl
@[simp] theorem State.answer_engine (r : Response) : (s.answer r).engine = s.engine := rfl
@[simp] theorem State.answer_events (r : Response) : (s.answer r).events = s.events := rfl
@[simp] theorem State.answer_resp (r : Response) : (s.answer r).resp = r := rfl
@[simp] theorem State.answer_draws (r : Response) : (s.answer r).draws = s.draws := rfl

@[simp] theorem State.setDraws_params (n : Nat) : (s.setDraws n).params = s.params := rfl
@[simp] theorem State.setDraws_regs (n : Nat) : (s.setDraws n).regs = s.regs := rfl
@[simp] theorem State.setDraws_engine (n : Nat) : (s.setDraws n).engine = s.engine := rfl
@[simp] theorem State.setDraws_events (n : Nat) : (s.setDraws n).events = s.events := rfl
@[simp] theorem State.setDraws_resp (n : Nat) : (s.setDraws n).resp = s.resp := rfl
@[simp] theorem State.setDraws_draws (n : Nat) : (s.setDraws n).draws = n := rfl

@[simp] theorem State.setI2c_params (e : I2cState) : (s.setI2c e).params = s.params := rfl
@[simp] theorem State.setI2c_regs (e : I2cState) : (s.setI2c e).regs = s.regs := rfl
@[simp] theorem State.setI2c_engine (e : I2cState) : (s.setI2c e).engine = .i2c e := rfl
@[simp] theorem State.setI2c_events (e : I2cState) : (s.setI2c e).events = s.events := rfl
@[simp] theorem State.setI2c_resp (e : I2cState) : (s.setI2c e).resp = s.resp := rfl
@[simp] theorem State.setI2c_draws (e : I2cState) : (s.setI2c e).draws = s.draws := rfl

@[simp] theorem State.setSpi_params (e : SpiState) : (s.setSpi e).params = s.params := rfl
@[simp] theorem State.setSpi_regs (e : SpiState) : (s.setSpi e).regs = s.regs := rfl
@[simp] theorem State.setSpi_engine (e : SpiState) : (s.setSpi e).engine = .spi e := rfl
@[simp] theorem State.setSpi_events (e : SpiState) : (s.setSpi e).events = s.events := rfl
@[simp] theorem State.setSpi_resp (e : SpiState) : (s.setSpi e).resp = s.resp := rfl
@[simp] theorem State.setSpi_draws (e : SpiState) : (s.setSpi e).draws = s.draws := rfl

@[simp] theorem State.setEngine_context (g : Engine) : (s.setEngine g).context = g.context := rfl
@[simp] theorem State.setEvents_context (ws : List EventWord) : (s.setEvents ws).context = s.context := rfl

@[simp] theorem Response.silent_err : Response.silent.err = false := rfl
@[simp] theorem Response.silent_ack : Response.silent.ack = none := rfl
@[simp] theorem Response.silent_dout : Response.silent.dout = none := rfl
@[simp] theorem Response.accepted_err : Response.accepted.err = false := rfl
@[simp] theorem Response.accepted_ack : Response.accepted.ack = some .ack := rfl
@[simp] theorem Response.accepted_dout : Response.accepted.dout = none := rfl
@[simp] theorem Response.data_err (d : Byte) : (Response.data d).err = false := rfl
@[simp] theorem Response.data_ack (d : Byte) : (Response.data d).ack = none := rfl
@[simp] theorem Response.data_dout (d : Byte) : (Response.data d).dout = some d := rfl
@[simp] theorem Response.rejected_err : Response.rejected.err = true := rfl
@[simp] theorem Response.rejected_ack : Response.rejected.ack = some .nack := rfl
@[simp] theorem Response.rejected_dout : Response.rejected.dout = none := rfl
@[simp] theorem Response.dataError_err (d : Byte) : (Response.dataError d).err = true := rfl
@[simp] theorem Response.dataError_ack (d : Byte) : (Response.dataError d).ack = none := rfl
@[simp] theorem Response.dataError_dout (d : Byte) : (Response.dataError d).dout = some d := rfl

@[simp] theorem Engine.bus_i2c (e : I2cState) : (Engine.i2c e).bus = .i2c := rfl
@[simp] theorem Engine.bus_spi (e : SpiState) : (Engine.spi e).bus = .spi := rfl
@[simp] theorem Engine.context_i2c (e : I2cState) : (Engine.i2c e).context = .i2c e.phase := rfl
@[simp] theorem Engine.context_spi (e : SpiState) : (Engine.spi e).context = .spi e.sel e.mode := rfl
@[simp] theorem Engine.forceIdle_bus (g : Engine) : g.forceIdle.bus = g.bus := by cases g <;> rfl
@[simp] theorem Engine.fresh_bus (p : Params) (b : Bus) : (Engine.fresh p b).bus = b := by cases b <;> rfl

end Sys2Proof.Machine
end

