-- ==== Sys2Proof/Laws/Decode.lean ====
section
/-! SUPPORT. Fields of words, and the event a word names (30_encoding.md R80, R81, R90). -/

namespace Sys2Proof

/-- Bit `i` of an event word: `din` below bit 8, `ev` from bit 8 on. -/
theorem eventWord_getLsbD (ev : BitVec 3) (din : Byte) (i : Nat) :
    (eventWord ev din).getLsbD i = if i < 8 then din.getLsbD i else ev.getLsbD (i - 8) :=
  BitVec.getLsbD_append (x := ev) (y := din)

/-- Bit `i` of a command byte: `addr` below bit 6, `op` from bit 6 on. -/
theorem cmdByte_getLsbD (op : BitVec 2) (addr : SpiAddr) (i : Nat) :
    (cmdByte op addr).getLsbD i = if i < 6 then addr.getLsbD i else op.getLsbD (i - 6) :=
  BitVec.getLsbD_append (x := op) (y := addr)

@[simp] theorem evField_eventWord (ev : BitVec 3) (din : Byte) : evField (eventWord ev din) = ev := by
  apply BitVec.eq_of_getLsbD_eq
  intro i hi
  simp [evField, eventWord_getLsbD, hi]

@[simp] theorem dinField_eventWord (ev : BitVec 3) (din : Byte) : dinField (eventWord ev din) = din := by
  apply BitVec.eq_of_getLsbD_eq
  intro i hi
  simp [dinField, eventWord_getLsbD, hi]

@[simp] theorem Event.ofWord_word (e : Event) : Event.ofWord e.word = some e := by
  cases e <;> simp [Event.ofWord, Event.word]

@[simp] theorem cmdOp_cmdByte (op : BitVec 2) (addr : SpiAddr) : cmdOp (cmdByte op addr) = op := by
  apply BitVec.eq_of_getLsbD_eq
  intro i hi
  simp [cmdOp, cmdByte_getLsbD, hi]

/-- `din & 0x3F` keeps the six low bits. -/
theorem cmdAddr_getLsbD (din : Byte) (i : Nat) (hi : i < 6) : (cmdAddr din).getLsbD i = din.getLsbD i := by
  have hm : ∀ j < 6, (0x3F#8).getLsbD j = true := by decide
  simp only [cmdAddr, BitVec.getLsbD_setWidth, BitVec.getLsbD_and, hm i hi, hi, decide_true, Bool.true_and, Bool.and_true]

@[simp] theorem cmdAddr_cmdByte (op : BitVec 2) (addr : SpiAddr) : cmdAddr (cmdByte op addr) = addr := by
  apply BitVec.eq_of_getLsbD_eq
  intro i hi
  rw [cmdAddr_getLsbD _ _ hi]
  simp [cmdByte_getLsbD, hi]

/-- The operation field is the byte shifted right by six (30_encoding.md R90). -/
theorem cmdOp_toNat (b : Byte) : (cmdOp b).toNat = (b >>> 6).toNat := by
  have := b.isLt
  simp only [cmdOp, BitVec.extractLsb'_toNat, BitVec.toNat_ushiftRight, Nat.shiftRight_eq_div_pow]
  omega

@[simp] theorem decode_word (ctx : Context) (e : Event) : decode ctx e.word = selectInstr ctx e := by
  simp [decode]

end Sys2Proof
end

