-- ==== Sys2Proof/Laws/RegFile.lean ====
section
/-! SUPPORT. What the Register File operations do (40_register_file.md), and that each keeps the canonical form. -/

namespace Sys2Proof.Machine

variable {rf : RegFile} {a b : RegAddr} {r : Register}

/-! ## Look-up -/

theorem RegFile.mem_of_lookup (h : rf.lookup a = some r) : r ∈ rf := List.mem_of_find?_eq_some h

theorem RegFile.addr_of_lookup (h : rf.lookup a = some r) : r.desc.addr = a := by
  simpa using List.find?_some h

theorem RegFile.lookup_eq_none_iff : rf.lookup a = none ↔ a ∉ rf.dom := by
  simp [RegFile.lookup, RegFile.dom]

theorem RegFile.dom_eq_regMap : rf.dom = (rf.regMap).map Descriptor.addr := by
  simp [RegFile.dom, RegFile.regMap]

theorem RegFile.read_eq : rf.read a = (rf.lookup a).map (fun r => (r.value, r.desc.width)) := rfl

/-! ## The canonical form -/

theorem RegFile.wf_iff : rf.wf = true ↔
    strictlyAscending rf.dom = true ∧
      ∀ r ∈ rf, r.desc.wf = true ∧ r.value.toNat < 2 ^ (8 * r.desc.width) := by
  simp [RegFile.wf, RegMap.wf, RegFile.regMap, RegFile.dom, Function.comp_def, and_assoc, forall_and]

theorem Descriptor.wf_iff {d : Descriptor} :
    d.wf = true ↔ 1 ≤ d.width ∧ d.width ≤ 3 ∧ d.reset < 2 ^ (8 * d.width) := by
  simp [Descriptor.wf, and_assoc]

theorem Descriptor.resetValue_toNat {d : Descriptor} (h : d.wf = true) : d.resetValue.toNat = d.reset := by
  obtain ⟨-, h3, hr⟩ := Descriptor.wf_iff.1 h
  have : (2 : Nat) ^ (8 * d.width) ≤ 2 ^ 24 := Nat.pow_le_pow_right (by omega) (by omega)
  simp only [Descriptor.resetValue, BitVec.toNat_ofNat]
  omega

theorem RegFile.width_bounds (h : rf.wf = true) (hr : r ∈ rf) : 1 ≤ r.desc.width ∧ r.desc.width ≤ 3 := by
  have := Descriptor.wf_iff.1 ((RegFile.wf_iff.1 h).2 r hr).1
  omega

theorem RegFile.roHeld_iff :
    rf.roHeld = true ↔ ∀ r ∈ rf, r.desc.access = .ro → r.value = r.desc.resetValue := by
  simp only [RegFile.roHeld, List.all_eq_true, decide_eq_true_eq]

/-- In a strictly ascending list the register with an address is the one the look-up finds. -/
theorem RegFile.lookup_of_mem (h : rf.wf = true) (hr : r ∈ rf) : rf.lookup r.desc.addr = some r := by
  have hs := (RegFile.wf_iff.1 h).1
  clear h
  induction rf with
  | nil => simp at hr
  | cons q rf ih =>
    have hs' : (∀ p ∈ rf, q.desc.addr < p.desc.addr) ∧ strictlyAscending (RegFile.dom rf) = true := by
      simpa [RegFile.dom, strictlyAscending] using hs
    rcases List.mem_cons.1 hr with rfl | hr
    · simp [RegFile.lookup]
    · have hne : q.desc.addr ≠ r.desc.addr := by
        have := hs'.1 r hr
        intro he
        simp [he] at this
      have := ih hr hs'.2
      simpa [RegFile.lookup, hne] using this

/-! ## RF.write -/

@[simp] theorem RegFile.write_regMap (v : Nat) : (rf.write a v).regMap = rf.regMap := by
  simp only [RegFile.write, RegFile.regMap, List.map_map]
  refine List.map_congr_left fun r _ => ?_
  simp only [Function.comp_apply]
  split <;> rfl

@[simp] theorem RegFile.write_dom (v : Nat) : (rf.write a v).dom = rf.dom := by
  simp [RegFile.dom_eq_regMap]

/-- The register found after a write: its address and access mode decide. -/
theorem RegFile.lookup_write (v : Nat) :
    (rf.write a v).lookup b =
      (rf.lookup b).map
        (fun r => if b = a ∧ r.desc.access = .rw then { r with value := truncTo r.desc.width v } else r) := by
  induction rf with
  | nil => rfl
  | cons q rf ih =>
    have hd : (if q.desc.addr = a ∧ q.desc.access = .rw then
        { q with value := truncTo q.desc.width v } else q).desc = q.desc := by split <;> rfl
    simp only [RegFile.lookup, RegFile.write, List.map_cons, List.find?_cons, hd] at ih ⊢
    by_cases hq : q.desc.addr = b
    · simp [hq]
    · simp [hq, ih]

theorem RegFile.lookup_write_other (v : Nat) (h : b ≠ a) : (rf.write a v).lookup b = rf.lookup b := by
  simp [RegFile.lookup_write, h]

theorem RegFile.mem_write {v : Nat} (h : r ∈ rf.write a v) :
    ∃ q ∈ rf, r = q ∨ (q.desc.addr = a ∧ q.desc.access = .rw ∧ r = { q with value := truncTo q.desc.width v }) := by
  obtain ⟨q, hq, rfl⟩ := List.mem_map.1 h
  refine ⟨q, hq, ?_⟩
  split
  · next hc => exact .inr ⟨hc.1, hc.2, rfl⟩
  · exact .inl rfl

/-- A write that finds no read-write register there is no change at all. -/
theorem RegFile.write_eq_self (v : Nat) (h : ∀ r ∈ rf, r.desc.addr = a → r.desc.access = .ro) :
    rf.write a v = rf := by
  have : ∀ q ∈ rf, (if q.desc.addr = a ∧ q.desc.access = .rw then
      { q with value := truncTo q.desc.width v } else q) = q := by
    intro q hq
    split
    · next hc => simp [h q hq hc.1] at hc
    · rfl
  simpa [RegFile.write] using List.map_congr_left this

theorem truncTo_lt {w : Nat} (v : Nat) (h : w ≤ 3) : (truncTo w v).toNat < 2 ^ (8 * w) := by
  have h1 : v % 2 ^ (8 * w) < 2 ^ (8 * w) := Nat.mod_lt _ (by positivity)
  have h2 : (2 : Nat) ^ (8 * w) ≤ 2 ^ 24 := Nat.pow_le_pow_right (by omega) (by omega)
  simp only [truncTo, BitVec.toNat_ofNat]
  omega

theorem RegFile.write_wf (v : Nat) (h : rf.wf = true) : (rf.write a v).wf = true := by
  rw [RegFile.wf_iff] at h ⊢
  refine ⟨by simpa using h.1, fun r hr => ?_⟩
  obtain ⟨q, hq, rfl | ⟨-, -, rfl⟩⟩ := RegFile.mem_write hr
  · exact h.2 _ hq
  · exact ⟨(h.2 q hq).1, truncTo_lt v (Descriptor.wf_iff.1 (h.2 q hq).1).2.1⟩

theorem RegFile.write_roHeld (v : Nat) (h : rf.roHeld = true) : (rf.write a v).roHeld = true := by
  rw [RegFile.roHeld_iff] at h ⊢
  intro r hr hro
  obtain ⟨q, hq, rfl | ⟨-, hrw, rfl⟩⟩ := RegFile.mem_write hr
  · exact h _ hq hro
  · simp [hrw] at hro

/-! ## RF.reset -/

@[simp] theorem RegFile.reset_regMap : rf.reset.regMap = rf.regMap := by
  simp [RegFile.reset, RegFile.regMap, Register.fresh]

@[simp] theorem RegFile.reset_dom : rf.reset.dom = rf.dom := by simp [RegFile.dom_eq_regMap]

/-- RESET's register file depends on the map only. -/
theorem RegFile.reset_eq_fresh : rf.reset = (rf.regMap).map Register.fresh := by
  simp [RegFile.reset, RegFile.regMap]

theorem RegFile.lookup_reset : rf.reset.lookup b = (rf.lookup b).map (fun r => Register.fresh r.desc) := by
  simp [RegFile.lookup, RegFile.reset, Register.fresh]

theorem RegFile.fresh_wf {m : RegMap} (h : m.wf = true) : RegFile.wf (m.map Register.fresh) = true := by
  rw [RegFile.wf_iff]
  have hd : RegFile.dom (m.map Register.fresh) = m.map Descriptor.addr := by
    simp [RegFile.dom, Register.fresh]
  have hm : strictlyAscending (m.map Descriptor.addr) = true ∧ ∀ d ∈ m, d.wf = true := by
    simpa [RegMap.wf] using h
  refine ⟨hd ▸ hm.1, fun r hr => ?_⟩
  obtain ⟨d, hdm, rfl⟩ := List.mem_map.1 hr
  refine ⟨hm.2 d hdm, ?_⟩
  simpa [Register.fresh, Descriptor.resetValue_toNat (hm.2 d hdm)] using (Descriptor.wf_iff.1 (hm.2 d hdm)).2.2

theorem RegFile.fresh_roHeld (m : RegMap) : RegFile.roHeld (m.map Register.fresh) = true := by
  simp [RegFile.roHeld, Register.fresh]

theorem RegFile.regMap_wf (h : rf.wf = true) : (rf.regMap).wf = true := by
  simp only [RegFile.wf, Bool.and_eq_true] at h
  exact h.1

theorem RegFile.reset_wf (h : rf.wf = true) : rf.reset.wf = true := by
  rw [RegFile.reset_eq_fresh]
  exact RegFile.fresh_wf (RegFile.regMap_wf h)

theorem RegFile.reset_roHeld : rf.reset.roHeld = true := by
  rw [RegFile.reset_eq_fresh]
  exact RegFile.fresh_roHeld _

/-! ## What depends on the map alone -/

theorem RegFile.next_congr {rf' : RegFile} (h : rf.regMap = rf'.regMap) : rf.next = rf'.next := by
  funext a
  simp [RegFile.next, RegFile.dom_eq_regMap, h]

/-- Two files with one map find a register at the same addresses, with the same attributes. -/
theorem RegFile.lookup_desc : (rf.lookup a).map Register.desc = (rf.regMap).find? (fun d => decide (d.addr = a)) := by
  simp [RegFile.lookup, RegFile.regMap, List.find?_map]

theorem RegFile.widthAt_eq :
    rf.widthAt a = (((rf.regMap).find? (fun d => decide (d.addr = a))).map Descriptor.width).getD 1 := by
  rw [← RegFile.lookup_desc, RegFile.widthAt]
  cases rf.lookup a <;> rfl

theorem RegFile.widthAt_congr {rf' : RegFile} (h : rf.regMap = rf'.regMap) : rf.widthAt = rf'.widthAt := by
  funext a
  rw [RegFile.widthAt_eq, RegFile.widthAt_eq, h]

theorem RegFile.widthAt_of_lookup (h : rf.lookup a = some r) : rf.widthAt a = r.desc.width := by
  simp [RegFile.widthAt, h]

theorem RegFile.widthAt_of_undefined (h : rf.lookup a = none) : rf.widthAt a = 1 := by
  simp [RegFile.widthAt, h]

theorem RegFile.widthAt_pos (h : rf.wf = true) (a : RegAddr) : 0 < rf.widthAt a := by
  cases hl : rf.lookup a with
  | none => simp [RegFile.widthAt_of_undefined hl]
  | some r =>
    rw [RegFile.widthAt_of_lookup hl]
    exact (RegFile.width_bounds h (RegFile.mem_of_lookup hl)).1

theorem RegFile.widthAt_le (h : rf.wf = true) (a : RegAddr) : rf.widthAt a ≤ 3 := by
  cases hl : rf.lookup a with
  | none => simp [RegFile.widthAt_of_undefined hl]
  | some r =>
    rw [RegFile.widthAt_of_lookup hl]
    exact (RegFile.width_bounds h (RegFile.mem_of_lookup hl)).2

end Sys2Proof.Machine
end

