-- ==== Sys2Proof/Laws/Ops.lean ====
section
/-! SUPPORT. What each shared operation can do, said once. -/

namespace Sys2Proof.Machine

variable {s t : State} {rf : RegFile} {e e' : I2cState}

/-! ## Running on one engine -/

theorem onI2c_eq {f : I2cState → Result} (h : s.engine = .i2c e) : onI2c s f = f e := by simp [onI2c, h]

theorem onSpi_eq {g : SpiState} {f : SpiState → Result} (h : s.engine = .spi g) : onSpi s f = f g := by
  simp [onSpi, h]

theorem onI2c_next {f : I2cState → Result} (h : onI2c s f = .next t) : ∃ e, s.engine = .i2c e ∧ f e = .next t := by
  unfold onI2c at h
  split at h
  · next e he => exact ⟨e, he, h⟩
  · cases h

theorem onSpi_next {f : SpiState → Result} (h : onSpi s f = .next t) : ∃ e, s.engine = .spi e ∧ f e = .next t := by
  unfold onSpi at h
  split at h
  · next e he => exact ⟨e, he, h⟩
  · cases h

/-! ## The I2C engine -/

/-- `advance()` goes to the next defined register or to the exhausted condition (41_i2c_engine.md R145). -/
theorem advance_cases (rf : RegFile) (e : I2cState) :
    (∃ a, rf.next e.ptr = some a ∧ advance rf e = { e with cursor := 0#2, ptr := a }) ∨
      (rf.next e.ptr = none ∧ advance rf e = { e with cursor := 0#2, ptrEnd := true }) := by
  cases h : rf.next e.ptr with
  | some a => exact .inl ⟨a, rfl, by simp [advance, h]⟩
  | none => exact .inr ⟨rfl, by simp [advance, h, ptrEndAfter]⟩

/-- `advance()` forgets the cursor it started with. -/
theorem advance_cursor (rf : RegFile) (e : I2cState) (c : BitVec 2) :
    advance rf { e with cursor := c } = advance rf e := by
  cases h : rf.next e.ptr <;> simp [advance, h]

/-- A cursor inside a register of at most three bytes counts on without wrapping. -/
theorem cursor_succ {c : BitVec 2} {w : Nat} (hc : c.toNat < w) (hw : w ≤ 3) :
    (c + 1#2).toNat = c.toNat + 1 := by
  have : c.toNat + 1 < 2 ^ 2 := by omega
  simp only [BitVec.toNat_add, BitVec.toNat_ofNat]
  omega

/-- One byte of a register: the cursor moves on inside it, or the pointer advances at its end. -/
theorem consumeByte_cases {w : Nat} (hc : e.cursor.toNat < w) (hw : w ≤ 3) :
    (e.cursor.toNat + 1 < w ∧ consumeByte rf w e = { e with cursor := e.cursor + 1#2 }) ∨
      (e.cursor.toNat + 1 = w ∧ consumeByte rf w e = advance rf e) := by
  have hs := cursor_succ hc hw
  by_cases h : e.cursor.toNat + 1 = w
  · exact .inr ⟨h, by rw [consumeByte, if_pos (by omega), advance_cursor]⟩
  · exact .inl ⟨by omega, by rw [consumeByte, if_neg (by omega)]⟩

/-- Whatever the cursor, a transferred byte keeps the phase, and the pointer is kept or advanced. -/
theorem consumeByte_frame (rf : RegFile) (w : Nat) (e : I2cState) :
    (consumeByte rf w e).phase = e.phase ∧
      ((consumeByte rf w e).ptr = e.ptr ∨ rf.next e.ptr = some (consumeByte rf w e).ptr) := by
  unfold consumeByte
  split
  · rw [advance_cursor]
    obtain ⟨a, ha, he⟩ | ⟨-, he⟩ := advance_cases rf e
    · simp [he, ha]
    · simp [he]
  · simp

/-! ## The SPI engine -/

/-- `inc6` (42_spi_engine.md R194): one more below 63; at 63 what the open parameter says. -/
theorem inc6_cases (p : Params) (n : Nat) (a : SpiAddr) :
    (a.toNat < 63 ∧ inc6 p n a = some (a + 1#6, n)) ∨
      (a = 63#6 ∧ p.spiAddrWrap = .refuse ∧ inc6 p n a = none) ∨
      (a = 63#6 ∧ p.spiAddrWrap = .wrap0 ∧ inc6 p n a = some (0#6, n)) ∨
      (a = 63#6 ∧ p.spiAddrWrap = .any ∧ inc6 p n a = some (Config.freeAddress n, n + 1)) := by
  by_cases h : a.toNat < 63
  · exact .inl ⟨h, by simp [inc6, h]⟩
  · have ha : a = 63#6 := by
      apply BitVec.eq_of_toNat_eq
      have := a.isLt
      simp only [BitVec.toNat_ofNat]
      omega
    cases hp : p.spiAddrWrap
    · exact .inr (.inl ⟨ha, rfl, by simp [inc6, h, hp]⟩)
    · exact .inr (.inr (.inl ⟨ha, rfl, by simp [inc6, h, hp]⟩))
    · exact .inr (.inr (.inr ⟨ha, rfl, by simp [inc6, h, hp]⟩))

theorem spiRead_of_lookup {a : SpiAddr} {r : Register} (h : rf.lookup (spiRegAddr a) = some r) :
    spiRead rf a = r.value.setWidth 8 := by simp [spiRead, RegFile.read_eq, h]

theorem spiRead_of_undefined {a : SpiAddr} (h : rf.lookup (spiRegAddr a) = none) : spiRead rf a = spiUndefRead := by
  simp [spiRead, RegFile.read_eq, h]

/-! ## MalformedSequence and RESET -/

@[simp] theorem raiseMalformed_regs (ev : Event) : (raiseMalformed ev s).regs = s.regs := rfl
@[simp] theorem raiseMalformed_params (ev : Event) : (raiseMalformed ev s).params = s.params := rfl
@[simp] theorem raiseMalformed_events (ev : Event) : (raiseMalformed ev s).events = s.events := rfl
@[simp] theorem raiseMalformed_draws (ev : Event) : (raiseMalformed ev s).draws = s.draws := rfl
@[simp] theorem raiseMalformed_engine (ev : Event) : (raiseMalformed ev s).engine = s.engine.forceIdle := rfl

@[simp] theorem raiseMalformed_err (ev : Event) : (raiseMalformed ev s).resp.err = true := by
  simp only [raiseMalformed, State.answer_resp]
  unfold malformedResponse
  split <;> rfl

@[simp] theorem State.afterReset_regs : s.afterReset.regs = s.regs.reset := rfl
@[simp] theorem State.afterReset_params : s.afterReset.params = s.params := rfl
@[simp] theorem State.afterReset_events : s.afterReset.events = s.events := rfl
@[simp] theorem State.afterReset_draws : s.afterReset.draws = s.draws := rfl
@[simp] theorem State.afterReset_resp : s.afterReset.resp = Response.silent := rfl
@[simp] theorem State.afterReset_engine : s.afterReset.engine = Engine.fresh s.params s.engine.bus := rfl

end Sys2Proof.Machine
end

