-- ==== Sys2Proof/Laws/PerInstr.lean ====
section
/-! SUPPORT. A family of facts about every instruction: the word that `encode` writes names the instruction's event
(30_encoding.md R80, R81), and its `din` field is the byte the instruction carries. -/

namespace Sys2Proof.Laws.EncodedEvent

/-- The byte an instruction's event carries, or the conventional 0. -/
def carried (i : Instr) : Byte :=
  match i.event with
  | .byteIn din => din
  | _ => 0x00#8

def Statement (i : Instr) : Prop := Event.ofWord (encode i) = some i.event ∧ dinField (encode i) = carried i

theorem of_event (i : Instr) : Statement i := by
  refine ⟨Event.ofWord_word _, ?_⟩
  unfold carried encode
  cases i.event <;> simp [Event.word]

theorem i2cStartSend : Statement .i2cStartSend := of_event _
theorem i2cStartRecv : Statement .i2cStartRecv := of_event _
theorem i2cWbytePtr (ptr : Byte) : Statement (.i2cWbytePtr ptr) := of_event _
theorem i2cWbyteData (data : Byte) : Statement (.i2cWbyteData data) := of_event _
theorem i2cWbyteBad (din : Byte) : Statement (.i2cWbyteBad din) := of_event _
theorem i2cRbyte : Statement .i2cRbyte := of_event _
theorem i2cRbyteBad : Statement .i2cRbyteBad := of_event _
theorem i2cStop : Statement .i2cStop := of_event _
theorem reset : Statement .reset := of_event _
theorem spiSelect : Statement .spiSelect := of_event _
theorem spiCmdWrite (addr : SpiAddr) : Statement (.spiCmdWrite addr) := of_event _
theorem spiCmdNop01 (addr : SpiAddr) : Statement (.spiCmdNop01 addr) := of_event _
theorem spiCmdRead (addr : SpiAddr) : Statement (.spiCmdRead addr) := of_event _
theorem spiCmdMread (addr : SpiAddr) : Statement (.spiCmdMread addr) := of_event _
theorem spiDataRead (data : Byte) : Statement (.spiDataRead data) := of_event _
theorem spiDataMreadCont : Statement .spiDataMreadCont := of_event _
theorem spiDataMreadExit (din : Byte) : Statement (.spiDataMreadExit din) := of_event _
theorem spiDataWrite (data : Byte) : Statement (.spiDataWrite data) := of_event _
theorem spiXferBad (din : Byte) : Statement (.spiXferBad din) := of_event _
theorem spiDeselect : Statement .spiDeselect := of_event _

end Sys2Proof.Laws.EncodedEvent
end

