-- ==== Sys2Proof/Laws/Step.lean ====
section
/-! SUPPORT. The step, taken apart once: everything a step that goes on can be, on each engine. -/

namespace Sys2Proof.Machine

variable {s t : State}

theorem step_of_no_event (h : s.events = []) : step s = .next s := by simp [step, h]

theorem step_of_decode {w : EventWord} {rest : List EventWord} {i : Instr} (h : s.events = w :: rest)
    (hd : decode s.context w = .ok i) : step s = exec i (s.setEvents rest) := by simp [step, h, hd]

theorem step_of_meaningless {w : EventWord} {rest : List EventWord} {why : DecodeError} (h : s.events = w :: rest)
    (hd : decode s.context w = .error why) : step s = .refused (.noMeaning why) := by simp [step, h, hd]

/-- A step with an event in trace form runs what R88 selects. -/
theorem step_of_event {e : Event} {rest : List EventWord} {i : Instr} (h : s.events = e.word :: rest)
    (hd : selectInstr s.context e = .ok i) : step s = exec i (s.setEvents rest) :=
  step_of_decode h (by simpa using hd)

/-- A step that goes on rests, or runs one event as the instruction it is in this state. -/
theorem step_next_cases (h : step s = .next t) :
    (s.events = [] ∧ t = s) ∨
      ∃ w rest e i, s.events = w :: rest ∧ Event.ofWord w = some e ∧ selectInstr s.context e = .ok i ∧
        exec i (s.setEvents rest) = .next t := by
  unfold step at h
  split at h
  · next he => exact .inl ⟨he, by cases h; rfl⟩
  · next w rest he =>
    unfold decode at h
    cases hw : Event.ofWord w with
    | none => simp [hw] at h
    | some e =>
      cases hi : selectInstr s.context e with
      | ok i => exact .inr ⟨w, rest, e, i, he, hw, hi, by simpa [hw, hi] using h⟩
      | error why => simp [hw, hi] at h

/-! ## The I2C engine -/

/-- What an event can do on an instance with the I2C engine `e` (41_i2c_engine.md R140): one constructor per cell of the
table, the data cells taken apart by what stands at the pointer. `s` is the state with the event taken off the stream. -/
inductive I2cStep (s : State) (e : I2cState) : Event → State → Prop where
  | startSend : I2cStep s e .start ((s.setI2c { e with cursor := 0#2, phase := .addressing }).answer Response.silent)
  | startRecv : I2cStep s e .startRecv ((s.setI2c { e with cursor := 0#2, phase := .reading }).answer Response.silent)
  | pointer (b : Byte) (hp : e.phase = .addressing) :
      I2cStep s e (.byteIn b)
        ((s.setI2c { ptr := b, ptrEnd := false, cursor := 0#2, phase := .writing }).answer Response.accepted)
  | dataAtEnd (b : Byte) (hp : e.phase = .writing) (he : e.ptrEnd = true) :
      I2cStep s e (.byteIn b) (s.answer Response.accepted)
  | dataUndefined (b : Byte) (hp : e.phase = .writing) (he : e.ptrEnd = false) (hl : s.regs.lookup e.ptr = none) :
      I2cStep s e (.byteIn b) ((s.setI2c (consumeByte s.regs 1 e)).answer Response.accepted)
  | dataDefined (b : Byte) (r : Register) (hp : e.phase = .writing) (he : e.ptrEnd = false)
      (hl : s.regs.lookup e.ptr = some r) :
      I2cStep s e (.byteIn b)
        (((s.setRegs (s.regs.write e.ptr (withByte r.value r.desc.width r.desc.order e.cursor.toNat b).toNat)).setI2c
          (consumeByte s.regs r.desc.width e)).answer Response.accepted)
  | malformedByte (b : Byte) (hp : e.phase = .idle ∨ e.phase = .reading) :
      I2cStep s e (.byteIn b)
        ((s.setI2c { e with cursor := 0#2, phase := .idle }).answer Response.rejected)
  | readAtEnd (hp : e.phase = .reading) (he : e.ptrEnd = true) :
      I2cStep s e .byteOutReq (s.answer (Response.data s.params.i2cFiller))
  | readUndefined (hp : e.phase = .reading) (he : e.ptrEnd = false) (hl : s.regs.lookup e.ptr = none) :
      I2cStep s e .byteOutReq
        ((s.setI2c (consumeByte s.regs 1 e)).answer (Response.data s.params.i2cFiller))
  | readDefined (r : Register) (hp : e.phase = .reading) (he : e.ptrEnd = false)
      (hl : s.regs.lookup e.ptr = some r) :
      I2cStep s e .byteOutReq
        ((s.setI2c (consumeByte s.regs r.desc.width e)).answer
          (Response.data (byteOf r.value r.desc.width r.desc.order e.cursor.toNat)))
  | malformedRequest (hp : e.phase = .idle ∨ e.phase = .addressing ∨ e.phase = .writing) :
      I2cStep s e .byteOutReq
        ((s.setI2c { e with cursor := 0#2, phase := .idle }).answer (Response.dataError s.params.i2cFiller))
  | stop : I2cStep s e .stop ((s.setI2c { e with cursor := 0#2, phase := .idle }).answer Response.silent)
  | reset : I2cStep s e .reset
      (((s.setRegs s.regs.reset).setI2c (I2cState.fresh s.params)).answer Response.silent)

theorem execI2cWbyteData_cases {e : I2cState} {b : Byte} (he : s.engine = .i2c e) (hp : e.phase = .writing)
    (h : execI2cWbyteData b s = .next t) : I2cStep s e (.byteIn b) t := by
  rw [execI2cWbyteData, onI2c_eq he] at h
  cases hend : e.ptrEnd with
  | true => simp only [hend, if_true] at h; cases h; exact .dataAtEnd b hp hend
  | false =>
    cases hl : s.regs.lookup e.ptr with
    | none => simp only [hend, hl] at h; cases h; exact .dataUndefined b hp hend hl
    | some r => simp only [hend, hl] at h; cases h; exact .dataDefined b r hp hend hl

theorem execI2cRbyte_cases {e : I2cState} (he : s.engine = .i2c e) (hp : e.phase = .reading)
    (h : execI2cRbyte s = .next t) : I2cStep s e .byteOutReq t := by
  rw [execI2cRbyte, onI2c_eq he] at h
  cases hend : e.ptrEnd with
  | true => simp only [hend, if_true] at h; cases h; exact .readAtEnd hp hend
  | false =>
    cases hl : s.regs.lookup e.ptr with
    | none => simp only [hend, hl] at h; cases h; exact .readUndefined hp hend hl
    | some r => simp only [hend, hl] at h; cases h; exact .readDefined r hp hend hl

theorem raiseMalformed_i2c {e : I2cState} (he : s.engine = .i2c e) (ev : Event) :
    raiseMalformed ev s =
      (s.setI2c { e with cursor := 0#2, phase := .idle }).answer (malformedResponse s.params .i2c ev) := by
  simp [raiseMalformed, he, Engine.forceIdle, State.setI2c]

theorem State.afterReset_i2c {e : I2cState} (he : s.engine = .i2c e) :
    s.afterReset = ((s.setRegs s.regs.reset).setI2c (I2cState.fresh s.params)).answer Response.silent := by
  simp [State.afterReset, he, Engine.fresh, State.setI2c]

/-- An instruction the decoder gives on the I2C engine is one cell of the table. -/
theorem exec_i2c_cases {e : I2cState} {ev : Event} {i : Instr} (he : s.engine = .i2c e)
    (hi : selectInstr (.i2c e.phase) ev = .ok i) (h : exec i s = .next t) : I2cStep s e ev t := by
  cases ev <;> simp only [selectInstr, Except.ok.injEq] at hi <;> subst hi
  case start => rw [exec, execI2cStartSend, onI2c_eq he] at h; cases h; exact .startSend
  case startRecv => rw [exec, execI2cStartRecv, onI2c_eq he] at h; cases h; exact .startRecv
  case byteIn b =>
    cases hp : e.phase <;> simp only [hp, selectI2cByte, exec] at h
    case idle =>
      rw [execI2cWbyteBad, onI2c_eq he, raiseMalformed_i2c he] at h; cases h; exact .malformedByte b (.inl hp)
    case reading =>
      rw [execI2cWbyteBad, onI2c_eq he, raiseMalformed_i2c he] at h; cases h; exact .malformedByte b (.inr hp)
    case addressing => rw [execI2cWbytePtr, onI2c_eq he] at h; cases h; exact .pointer b hp
    case writing => exact execI2cWbyteData_cases he hp h
  case byteOutReq =>
    cases hp : e.phase <;> simp only [hp, selectI2cRequest, exec] at h
    case reading => exact execI2cRbyte_cases he hp h
    all_goals
      rw [execI2cRbyteBad, onI2c_eq he, raiseMalformed_i2c he] at h; cases h
      exact .malformedRequest (by simp [hp])
  case stop => rw [exec, execI2cStop, onI2c_eq he] at h; cases h; exact .stop
  case reset => rw [exec, execReset, State.afterReset_i2c he] at h; cases h; exact .reset

theorem step_i2c_cases {e : I2cState} (he : s.engine = .i2c e) (h : step s = .next t) :
    (s.events = [] ∧ t = s) ∨
      ∃ w rest ev, s.events = w :: rest ∧ Event.ofWord w = some ev ∧ I2cStep (s.setEvents rest) e ev t := by
  obtain h | ⟨w, rest, ev, i, hev, hw, hi, hx⟩ := step_next_cases h
  · exact .inl h
  · exact .inr ⟨w, rest, ev, hev, hw, exec_i2c_cases he (by simpa [State.context, he] using hi) hx⟩

/-! ## The SPI engine -/

/-- What an event can do on an instance with the SPI engine `e` (42_spi_engine.md R180, R182). -/
inductive SpiStep (s : State) (e : SpiState) : Event → State → Prop where
  | select : SpiStep s e .start ((s.setSpi { e with sel := true, mode := .standby }).answer Response.silent)
  | deselect : SpiStep s e .stop ((s.setSpi { e with sel := false, mode := .standby }).answer Response.silent)
  | reset : SpiStep s e .reset
      (((s.setRegs s.regs.reset).setSpi (SpiState.fresh s.params)).answer Response.silent)
  | malformed (b : Byte) (hs : e.sel = false) :
      SpiStep s e (.byteIn b) ((s.setSpi { e with mode := .standby }).answer (Response.dataError spiIdleOut))
  | command (b : Byte) (mode : Mode) (hs : e.sel = true)
      (hm : e.mode = .standby ∨ (e.mode = .multiRead ∧ b ≠ spiCont))
      (hop : (cmdOp b).toNat = 0 ∧ mode = .write ∨ (cmdOp b).toNat = 2 ∧ mode = .read ∨
        (cmdOp b).toNat = 3 ∧ mode = .multiRead) :
      SpiStep s e (.byteIn b) (enterCommand s e mode (cmdAddr b))
  | nop (b : Byte) (hs : e.sel = true) (hm : e.mode = .standby ∨ (e.mode = .multiRead ∧ b ≠ spiCont))
      (hop : (cmdOp b).toNat = 1) :
      SpiStep s e (.byteIn b) ((s.setSpi { e with mode := .standby }).answer (Response.data spiIdleOut))
  | dataRead (b : Byte) (hs : e.sel = true) (hm : e.mode = .read) :
      SpiStep s e (.byteIn b)
        ((s.setSpi { e with mode := .standby }).answer (Response.data (spiRead s.regs e.address)))
  | continuation (a : SpiAddr) (n : Nat) (hs : e.sel = true) (hm : e.mode = .multiRead)
      (ha : inc6 s.params s.draws e.address = some (a, n)) :
      SpiStep s e (.byteIn spiCont)
        (((s.setSpi { e with address := a }).setDraws n).answer (Response.data (spiRead s.regs e.address)))
  | dataWrite (b : Byte) (hs : e.sel = true) (hm : e.mode = .write) :
      SpiStep s e (.byteIn b)
        (((s.setRegs (s.regs.write (spiRegAddr e.address) b.toNat)).setSpi { e with mode := .standby }).answer
          (Response.data spiIdleOut))

theorem raiseMalformed_spi {e : SpiState} (he : s.engine = .spi e) (ev : Event) :
    raiseMalformed ev s = (s.setSpi { e with mode := .standby }).answer (malformedResponse s.params .spi ev) := by
  simp [raiseMalformed, he, Engine.forceIdle, State.setSpi]

theorem State.afterReset_spi {e : SpiState} (he : s.engine = .spi e) :
    s.afterReset = ((s.setRegs s.regs.reset).setSpi (SpiState.fresh s.params)).answer Response.silent := by
  simp [State.afterReset, he, Engine.fresh, State.setSpi]

/-- SPI.DATA.MREAD.EXIT is what standby would run for the byte (42_spi_engine.md R189). -/
theorem exec_exit_eq_command (b : Byte) : exec (.spiDataMreadExit b) s = exec (decodeCommand b) s := by
  have h4 := (cmdOp b).isLt
  have h : (cmdOp b).toNat = 0 ∨ (cmdOp b).toNat = 1 ∨ (cmdOp b).toNat = 2 ∨ (cmdOp b).toNat = 3 := by omega
  rcases h with h | h | h | h <;> simp [exec, execSpiDataMreadExit, spiCommand, decodeCommand, h]

theorem exec_command_cases {e : SpiState} {b : Byte} (he : s.engine = .spi e) (hs : e.sel = true)
    (hm : e.mode = .standby ∨ (e.mode = .multiRead ∧ b ≠ spiCont)) (h : exec (decodeCommand b) s = .next t) :
    SpiStep s e (.byteIn b) t := by
  have h4 := (cmdOp b).isLt
  have hc : (cmdOp b).toNat = 0 ∨ (cmdOp b).toNat = 1 ∨ (cmdOp b).toNat = 2 ∨ (cmdOp b).toNat = 3 := by omega
  rcases hc with hc | hc | hc | hc <;> simp only [decodeCommand, hc, exec] at h
  · rw [execSpiCmdWrite, onSpi_eq he] at h; cases h; exact .command b .write hs hm (.inl ⟨hc, rfl⟩)
  · rw [execSpiCmdNop01, onSpi_eq he] at h; cases h; exact .nop b hs hm hc
  · rw [execSpiCmdRead, onSpi_eq he] at h; cases h; exact .command b .read hs hm (.inr (.inl ⟨hc, rfl⟩))
  · rw [execSpiCmdMread, onSpi_eq he] at h; cases h; exact .command b .multiRead hs hm (.inr (.inr ⟨hc, rfl⟩))

/-- An instruction the decoder gives on the SPI engine is one case of the dispatch. -/
theorem exec_spi_cases {e : SpiState} {ev : Event} {i : Instr} (he : s.engine = .spi e)
    (hi : selectInstr (.spi e.sel e.mode) ev = .ok i) (h : exec i s = .next t) : SpiStep s e ev t := by
  cases ev <;> simp only [selectInstr, Except.ok.injEq, reduceCtorEq] at hi <;> subst hi
  case start => rw [exec, execSpiSelect, onSpi_eq he] at h; cases h; exact .select
  case stop => rw [exec, execSpiDeselect, onSpi_eq he] at h; cases h; exact .deselect
  case reset => rw [exec, execReset, State.afterReset_spi he] at h; cases h; exact .reset
  case byteIn b =>
    cases hs : e.sel with
    | false =>
      simp only [hs, selectSpiByte, Bool.false_eq_true, if_false, exec] at h
      rw [execSpiXferBad, onSpi_eq he, raiseMalformed_spi he] at h; cases h; exact .malformed b hs
    | true =>
      cases hm : e.mode <;> simp only [hs, hm, selectSpiByte, if_true] at h
      case standby => exact exec_command_cases he hs (.inl hm) h
      case read => rw [exec, execSpiDataRead, onSpi_eq he] at h; cases h; exact .dataRead b hs hm
      case write => rw [exec, execSpiDataWrite, onSpi_eq he] at h; cases h; exact .dataWrite b hs hm
      case multiRead =>
        by_cases hb : b = spiCont
        · subst hb
          rw [if_pos rfl, exec, execSpiDataMreadCont, onSpi_eq he] at h
          cases ha : inc6 s.params s.draws e.address with
          | none => simp [ha] at h
          | some p => simp only [ha] at h; cases h; exact .continuation p.1 p.2 hs hm ha
        · rw [if_neg hb, exec_exit_eq_command] at h
          exact exec_command_cases he hs (.inr ⟨hm, hb⟩) h

theorem step_spi_cases {e : SpiState} (he : s.engine = .spi e) (h : step s = .next t) :
    (s.events = [] ∧ t = s) ∨
      ∃ w rest ev, s.events = w :: rest ∧ Event.ofWord w = some ev ∧ SpiStep (s.setEvents rest) e ev t := by
  obtain h | ⟨w, rest, ev, i, hev, hw, hi, hx⟩ := step_next_cases h
  · exact .inl h
  · exact .inr ⟨w, rest, ev, hev, hw, exec_spi_cases he (by simpa [State.context, he] using hi) hx⟩

end Sys2Proof.Machine
end

