-- ==== Sys2Proof/Tests/Slice0.lean ====
section
/-! SUPPORT. The model's own tests. Expected values are the spec's: the worked examples of the rules and the vectors of
95_test_vectors.md, named at each theorem. The `witness_…` theorems show, for a statement with hypotheses, a concrete
state and operands that meet them. -/

namespace Sys2Proof.Tests

open Sys2Proof.Machine

/-! ## Fixtures (95_test_vectors.md section 1) -/

/-- `MAP_S`. -/
def mapS : RegMap := Config.defaultMap

/-- `MAP_W`. -/
def mapW : RegMap :=
  [ { addr := 0x00#8, width := 1, access := .ro, reset := 0x7A },
    { addr := 0x01#8, width := 2, access := .ro, reset := 0x1234 },
    { addr := 0x03#8, width := 3, access := .rw, reset := 0xABCDEF },
    { addr := 0x06#8, width := 2, access := .rw, reset := 0x0000 },
    { addr := 0x3F#8, width := 1, access := .rw, reset := 0x55 } ]

/-- `MAP_B`: one big-endian register (D18). -/
def mapB : RegMap := [ { addr := 0x10#8, width := 3, access := .rw, reset := 0xABCDEF, order := .be } ]

def regsOf (m : RegMap) : RegFile := m.map Register.fresh

/-- An I2C instance at reset but for its engine and its stream. -/
def i2cAt (m : RegMap) (e : I2cState) (ws : List EventWord) : State :=
  { State.fresh .i2c m {} with engine := .i2c e, events := ws }

/-- An SPI instance at reset but for its engine and its stream. -/
def spiAt (m : RegMap) (e : SpiState) (ws : List EventWord) : State :=
  { State.fresh .spi m {} with engine := .spi e, events := ws }

/-- What a test looks at after a step: the response, the engine and one register's value; `none` if there is no next
state. -/
def seen (r : Result) (a : RegAddr) : Option (Response × Engine × Option RegValue) :=
  match r with
  | .next s => some (s.resp, s.engine, (s.regs.lookup a).map Register.value)
  | .fault _ => none
  | .refused _ => none

/-- The reason of a refusal. -/
def whyRefused (r : Result) : Option Refusal :=
  match r with
  | .refused why => some why
  | .fault _ => none
  | .next _ => none

def inWord (b : Byte) : EventWord := (Event.byteIn b).word

/-! ## Well-formedness -/

/-- 42_spi_engine.md R189: "`0x00` cannot be an exit byte". -/
theorem test_wf_exit_byte : Instr.wf (.spiDataMreadExit 0x00#8) = false ∧ Instr.wf (.spiDataMreadExit 0x01#8) = true := by
  decide

/-- 00_scope.md R6, one ill-formed map for each condition: a repeated address, a descending pair, widths 0 and 4, a reset
value of `2^8` in one byte. -/
theorem test_wf_maps_refused :
    RegMap.wf [⟨5#8, 1, .ro, 0, .le⟩, ⟨5#8, 1, .rw, 0, .le⟩] = false ∧
    RegMap.wf [⟨6#8, 1, .ro, 0, .le⟩, ⟨5#8, 1, .rw, 0, .le⟩] = false ∧
    RegMap.wf [⟨5#8, 0, .ro, 0, .le⟩] = false ∧
    RegMap.wf [⟨5#8, 4, .ro, 0, .le⟩] = false ∧
    RegMap.wf [⟨5#8, 1, .ro, 256, .le⟩] = false := by decide

/-- R6: the fixtures and the empty map (D27) are well formed. -/
theorem test_wf_maps_accepted : mapS.wf = true ∧ mapW.wf = true ∧ mapB.wf = true ∧ RegMap.wf [] = true := by decide

/-- R6: the constructor refuses an ill-formed map. -/
theorem test_construct_refuses : State.construct .i2c [⟨5#8, 4, .ro, 0, .le⟩] {} = .error .illFormedMap := by rfl

/-! ## Decoding: one word written out for every row (30_encoding.md R80 to R88) -/

theorem test_decode_i2c :
    decode (.i2c .writing) 0b000_00000000#11 = .ok .i2cStartSend ∧
    decode (.i2c .idle) 0b001_00000000#11 = .ok .i2cStartRecv ∧
    decode (.i2c .addressing) 0b010_10000111#11 = .ok (.i2cWbytePtr 0x87#8) ∧
    decode (.i2c .writing) 0b010_00010001#11 = .ok (.i2cWbyteData 0x11#8) ∧
    decode (.i2c .idle) 0b010_00000111#11 = .ok (.i2cWbyteBad 0x07#8) ∧
    decode (.i2c .reading) 0b010_00000001#11 = .ok (.i2cWbyteBad 0x01#8) ∧
    decode (.i2c .reading) 0b011_00000000#11 = .ok .i2cRbyte ∧
    decode (.i2c .addressing) 0b011_00000000#11 = .ok .i2cRbyteBad ∧
    decode (.i2c .reading) 0b100_00000000#11 = .ok .i2cStop ∧
    decode (.i2c .writing) 0b101_00000000#11 = .ok .reset := by decide

theorem test_decode_spi :
    decode (.spi false .standby) 0b000_00000000#11 = .ok .spiSelect ∧
    decode (.spi true .standby) 0b010_00_111111#11 = .ok (.spiCmdWrite 0x3F#6) ∧
    decode (.spi true .standby) 0b010_01_000111#11 = .ok (.spiCmdNop01 0x07#6) ∧
    decode (.spi true .standby) 0b010_10_000111#11 = .ok (.spiCmdRead 0x07#6) ∧
    decode (.spi true .standby) 0b010_11_000111#11 = .ok (.spiCmdMread 0x07#6) ∧
    decode (.spi true .read) 0b010_10000111#11 = .ok (.spiDataRead 0x87#8) ∧
    decode (.spi true .multiRead) 0b010_00000000#11 = .ok .spiDataMreadCont ∧
    decode (.spi true .multiRead) 0b010_00000111#11 = .ok (.spiDataMreadExit 0x07#8) ∧
    decode (.spi true .write) 0b010_00000000#11 = .ok (.spiDataWrite 0x00#8) ∧
    decode (.spi false .standby) 0b010_11000111#11 = .ok (.spiXferBad 0xC7#8) ∧
    decode (.spi true .read) 0b100_00000000#11 = .ok .spiDeselect ∧
    decode (.spi true .write) 0b101_00000000#11 = .ok .reset := by decide

/-- 30_encoding.md R82, 95_test_vectors.md section 2.5. -/
theorem test_decode_refuses :
    decode (.i2c .idle) 0x600#11 = .error .reservedKind ∧ decode (.spi true .read) 0x7FF#11 = .error .reservedKind ∧
    decode (.spi true .standby) 0x100#11 = .error .noMeaningOnSpi ∧
    decode (.spi true .standby) 0x3FF#11 = .error .noMeaningOnSpi := by decide

/-- 95_test_vectors.md section 2.5: `din` is ignored but for `BYTE_IN`. -/
theorem test_decode_ignores_din :
    decode (.i2c .idle) 0x0FF#11 = .ok .i2cStartSend ∧ decode (.i2c .reading) 0x3FF#11 = .ok .i2cRbyte ∧
    decode (.spi true .read) 0x4FF#11 = .ok .spiDeselect := by decide

/-- 30_encoding.md R91: the words of the trace notation. -/
theorem test_encode_words :
    encode .i2cStartSend = 0x000#11 ∧ encode .i2cStartRecv = 0x100#11 ∧ encode (.i2cWbyteData 0x05#8) = 0x205#11 ∧
    encode .i2cRbyte = 0x300#11 ∧ encode .i2cStop = 0x400#11 ∧ encode .reset = 0x500#11 ∧
    encode (.spiCmdMread 0x07#6) = 0x2C7#11 ∧ encode (.spiCmdRead 0x07#6) = 0x287#11 := by decide

/-! ## The Register File (95_test_vectors.md section 2.1) -/

/-- 40_register_file.md R114, R115: the examples, and D18. -/
theorem test_bytes :
    byteOf 0xABCDEF#24 3 .le 0 = 0xEF#8 ∧ byteOf 0xABCDEF#24 3 .le 2 = 0xAB#8 ∧ byteOf 0x1234#24 2 .le 0 = 0x34#8 ∧
    byteOf 0xABCDEF#24 3 .be 0 = 0xAB#8 ∧ withByte 0xABCDEF#24 3 .le 0 0x11#8 = 0xABCD11#24 ∧
    withByte 0xABCD11#24 3 .le 1 0x22#8 = 0xAB2211#24 := by decide

/-- R110, R111, R113: the examples on `MAP_W`. -/
theorem test_register_file :
    (regsOf mapW).read 0x03#8 = some (0xABCDEF#24, 3) ∧ (regsOf mapW).read 0x02#8 = none ∧
    ((regsOf mapW).write 0x06#8 0x12345).read 0x06#8 = some (0x2345#24, 2) ∧
    (regsOf mapW).write 0x00#8 0xFF = regsOf mapW ∧ (regsOf mapW).write 0x02#8 1 = regsOf mapW ∧
    (regsOf mapW).next 0x01#8 = some 0x03#8 ∧ (regsOf mapW).next 0x02#8 = some 0x03#8 ∧
    (regsOf mapW).next 0x3F#8 = none ∧ (regsOf mapS).next 0x07#8 = some 0x0A#8 := by decide

/-! ## I2C, one step each -/

/-- 41_i2c_engine.md R141, R142, R147: the examples. -/
theorem test_i2c_starts_and_stop :
    seen (step (i2cAt mapW ⟨0x07#8, false, 0#2, .idle⟩ [0x000#11])) 0x03#8 =
      some (⟨none, none, false⟩, .i2c ⟨0x07#8, false, 0#2, .addressing⟩, some 0xABCDEF#24) ∧
    seen (step (i2cAt mapW ⟨0x07#8, false, 1#2, .writing⟩ [0x100#11])) 0x03#8 =
      some (⟨none, none, false⟩, .i2c ⟨0x07#8, false, 0#2, .reading⟩, some 0xABCDEF#24) ∧
    seen (step (i2cAt mapW ⟨0x03#8, false, 2#2, .writing⟩ [0x400#11])) 0x03#8 =
      some (⟨none, none, false⟩, .i2c ⟨0x03#8, false, 0#2, .idle⟩, some 0xABCDEF#24) := by decide

/-- R143: the pointer byte clears `ptr_end`. -/
theorem test_i2c_pointer_byte :
    seen (step (i2cAt mapW ⟨0x3F#8, true, 0#2, .addressing⟩ [0x207#11])) 0x03#8 =
      some (⟨none, some .ack, false⟩, .i2c ⟨0x07#8, false, 0#2, .writing⟩, some 0xABCDEF#24) := by decide

/-- R144: the first and the third byte of its example (the second register is entered at once, R145), with `MAP_W` at
reset. -/
theorem test_i2c_data_byte :
    seen (step (i2cAt mapW ⟨0x03#8, false, 0#2, .writing⟩ [0x211#11])) 0x03#8 =
      some (⟨none, some .ack, false⟩, .i2c ⟨0x03#8, false, 1#2, .writing⟩, some 0xABCD11#24) ∧
    seen (step (i2cAt mapW ⟨0x03#8, false, 2#2, .writing⟩ [0x233#11])) 0x03#8 =
      some (⟨none, some .ack, false⟩, .i2c ⟨0x06#8, false, 0#2, .writing⟩, some 0x33CDEF#24) := by decide

/-- R144 (b), R153, R144 (a): a read-only register counts the byte; an undefined pointer absorbs one; an exhausted one all. -/
theorem test_i2c_data_byte_not_stored :
    seen (step (i2cAt mapW ⟨0x01#8, false, 1#2, .writing⟩ [0x2FF#11])) 0x01#8 =
      some (⟨none, some .ack, false⟩, .i2c ⟨0x03#8, false, 0#2, .writing⟩, some 0x1234#24) ∧
    seen (step (i2cAt mapW ⟨0x02#8, false, 0#2, .writing⟩ [0x299#11])) 0x03#8 =
      some (⟨none, some .ack, false⟩, .i2c ⟨0x03#8, false, 0#2, .writing⟩, some 0xABCDEF#24) ∧
    seen (step (i2cAt mapW ⟨0x3F#8, true, 0#2, .writing⟩ [0x299#11])) 0x3F#8 =
      some (⟨none, some .ack, false⟩, .i2c ⟨0x3F#8, true, 0#2, .writing⟩, some 0x55#24) := by decide

/-- R146: its example, and the last register of the map. -/
theorem test_i2c_read :
    seen (step (i2cAt mapW ⟨0x01#8, false, 0#2, .reading⟩ [0x300#11])) 0x01#8 =
      some (⟨some 0x34#8, none, false⟩, .i2c ⟨0x01#8, false, 1#2, .reading⟩, some 0x1234#24) ∧
    seen (step (i2cAt mapW ⟨0x01#8, false, 1#2, .reading⟩ [0x300#11])) 0x01#8 =
      some (⟨some 0x12#8, none, false⟩, .i2c ⟨0x03#8, false, 0#2, .reading⟩, some 0x1234#24) ∧
    seen (step (i2cAt mapW ⟨0x3F#8, false, 0#2, .reading⟩ [0x300#11])) 0x3F#8 =
      some (⟨some 0x55#8, none, false⟩, .i2c ⟨0x3F#8, true, 0#2, .reading⟩, some 0x55#24) := by decide

/-- V-I2C-9 (b) and V-I2C-13: the filler at an undefined pointer, and the first byte of a big-endian register. -/
theorem test_i2c_read_filler_and_be :
    seen (step (i2cAt mapW ⟨0x40#8, false, 0#2, .reading⟩ [0x300#11])) 0x3F#8 =
      some (⟨some 0xFF#8, none, false⟩, .i2c ⟨0x40#8, true, 0#2, .reading⟩, some 0x55#24) ∧
    seen (step (i2cAt mapB ⟨0x10#8, false, 0#2, .reading⟩ [0x300#11])) 0x10#8 =
      some (⟨some 0xAB#8, none, false⟩, .i2c ⟨0x10#8, false, 1#2, .reading⟩, some 0xABCDEF#24) ∧
    seen (step (i2cAt mapB ⟨0x10#8, false, 0#2, .writing⟩ [0x211#11])) 0x10#8 =
      some (⟨none, some .ack, false⟩, .i2c ⟨0x10#8, false, 1#2, .writing⟩, some 0x11CDEF#24) := by decide

/-- V-I2C-11: malformed events. -/
theorem test_i2c_malformed :
    seen (step (i2cAt mapS ⟨0x07#8, false, 0#2, .reading⟩ [0x201#11])) 0x07#8 =
      some (⟨none, some .nack, true⟩, .i2c ⟨0x07#8, false, 0#2, .idle⟩, some 0x00#24) ∧
    seen (step (i2cAt mapS ⟨0x07#8, false, 0#2, .writing⟩ [0x300#11])) 0x07#8 =
      some (⟨some 0xFF#8, none, true⟩, .i2c ⟨0x07#8, false, 0#2, .idle⟩, some 0x00#24) := by decide

/-! ## SPI, one step each -/

/-- V-SPI-6, V-SPI-2: select, deselect and an exchange outside the window. -/
theorem test_spi_window :
    seen (step (spiAt mapS ⟨.standby, 0x00#6, false⟩ [0x000#11])) 0x07#8 =
      some (⟨none, none, false⟩, .spi ⟨.standby, 0x00#6, true⟩, some 0x00#24) ∧
    seen (step (spiAt mapS ⟨.write, 0x07#6, true⟩ [0x400#11])) 0x07#8 =
      some (⟨none, none, false⟩, .spi ⟨.standby, 0x07#6, false⟩, some 0x00#24) ∧
    seen (step (spiAt mapS ⟨.standby, 0x00#6, false⟩ [0x2C7#11])) 0x07#8 =
      some (⟨some 0x00#8, none, true⟩, .spi ⟨.standby, 0x00#6, false⟩, some 0x00#24) := by decide

/-- V-SPI-1: one row of the table for each operation. -/
theorem test_spi_commands :
    seen (step (spiAt mapS ⟨.standby, 0x0B#6, true⟩ [0x23F#11])) 0x07#8 =
      some (⟨some 0x00#8, none, false⟩, .spi ⟨.write, 0x3F#6, true⟩, some 0x00#24) ∧
    seen (step (spiAt mapS ⟨.standby, 0x0B#6, true⟩ [0x247#11])) 0x07#8 =
      some (⟨some 0x00#8, none, false⟩, .spi ⟨.standby, 0x0B#6, true⟩, some 0x00#24) ∧
    seen (step (spiAt mapS ⟨.standby, 0x0B#6, true⟩ [0x287#11])) 0x07#8 =
      some (⟨some 0x00#8, none, false⟩, .spi ⟨.read, 0x07#6, true⟩, some 0x00#24) ∧
    seen (step (spiAt mapS ⟨.standby, 0x0B#6, true⟩ [0x2C7#11])) 0x07#8 =
      some (⟨some 0x00#8, none, false⟩, .spi ⟨.multiRead, 0x07#6, true⟩, some 0x00#24) := by decide

/-- V-SPI-8: lane 0 is read, the write clears the upper lanes; V-SPI-3: a read-only register ignores a write. -/
theorem test_spi_data :
    seen (step (spiAt mapW ⟨.read, 0x03#6, true⟩ [0x2FF#11])) 0x03#8 =
      some (⟨some 0xEF#8, none, false⟩, .spi ⟨.standby, 0x03#6, true⟩, some 0xABCDEF#24) ∧
    seen (step (spiAt mapW ⟨.write, 0x03#6, true⟩ [0x211#11])) 0x03#8 =
      some (⟨some 0x00#8, none, false⟩, .spi ⟨.standby, 0x03#6, true⟩, some 0x000011#24) ∧
    seen (step (spiAt mapS ⟨.write, 0x00#6, true⟩ [0x299#11])) 0x00#8 =
      some (⟨some 0x00#8, none, false⟩, .spi ⟨.standby, 0x00#6, true⟩, some 0x07#24) := by decide

/-- V-SPI-2: a continuation through an undefined address, and the exit byte. -/
theorem test_spi_multi_read :
    seen (step (spiAt mapS ⟨.multiRead, 0x0A#6, true⟩ [0x200#11])) 0x07#8 =
      some (⟨some 0xA0#8, none, false⟩, .spi ⟨.multiRead, 0x0B#6, true⟩, some 0x00#24) ∧
    seen (step (spiAt mapS ⟨.multiRead, 0x08#6, true⟩ [0x200#11])) 0x07#8 =
      some (⟨some 0x00#8, none, false⟩, .spi ⟨.multiRead, 0x09#6, true⟩, some 0x00#24) ∧
    seen (step (spiAt mapS ⟨.multiRead, 0x0B#6, true⟩ [0x207#11])) 0x07#8 =
      some (⟨some 0x00#8, none, false⟩, .spi ⟨.write, 0x07#6, true⟩, some 0x00#24) ∧
    seen (step (spiAt mapS ⟨.multiRead, 0x0C#6, true⟩ [0x240#11])) 0x07#8 =
      some (⟨some 0x00#8, none, false⟩, .spi ⟨.standby, 0x0C#6, true⟩, some 0x00#24) := by decide

/-- V-SPI-9: the byte at 63 is answered; the address after it is the open parameter's (log entry 3). -/
theorem test_spi_wrap :
    seen (step { spiAt mapW ⟨.multiRead, 0x3F#6, true⟩ [0x200#11] with params := { spiAddrWrap := .wrap0 } }) 0x3F#8 =
      some (⟨some 0x55#8, none, false⟩, .spi ⟨.multiRead, 0x00#6, true⟩, some 0x55#24) ∧
    whyRefused (step { spiAt mapW ⟨.multiRead, 0x3F#6, true⟩ [0x200#11] with params := { spiAddrWrap := .refuse } }) =
      some .addrWrap := by decide

/-- With `any` the step completes too, whatever the free value. -/
theorem test_spi_wrap_any :
    seen (step (spiAt mapW ⟨.multiRead, 0x3F#6, true⟩ [0x200#11])) 0x3F#8 =
      some (⟨some 0x55#8, none, false⟩, .spi ⟨.multiRead, Config.freeAddress 0, true⟩, some 0x55#24) := by rfl

/-! ## RESET -/

/-- 70_reset_and_hazards.md R250: its example; V-SPI-7. -/
theorem test_reset :
    seen (step { i2cAt mapS ⟨0x0A#8, true, 0#2, .writing⟩ [0x500#11] with regs := (regsOf mapS).write 0x07#8 0x05 })
        0x07#8 =
      some (⟨none, none, false⟩, .i2c ⟨0x00#8, false, 0#2, .idle⟩, some 0x00#24) ∧
    seen (step { spiAt mapS ⟨.write, 0x07#6, true⟩ [0x500#11] with regs := (regsOf mapS).write 0x07#8 0x5A }) 0x07#8 =
      some (⟨none, none, false⟩, .spi ⟨.standby, 0x00#6, false⟩, some 0x00#24) := by decide

/-! ## Witnesses -/

/-- Read-only and read-write registers of every width, an undefined address, and a value above the width. -/
theorem witness_register_file :
    (regsOf mapW).wf = true ∧
    (⟨⟨0x01#8, 2, .ro, 0x1234, .le⟩, 0x1234#24⟩ : Register) ∈ regsOf mapW ∧
    (⟨⟨0x03#8, 3, .rw, 0xABCDEF, .le⟩, 0xABCDEF#24⟩ : Register) ∈ regsOf mapW ∧
    (0x02#8 : RegAddr) ∉ (regsOf mapW).dom ∧ (0xFF#8 : RegAddr) ∉ (regsOf mapW).dom ∧
    ((regsOf mapW).write 0x03#8 0x1000001).read 0x03#8 = some (0x000001#24, 3) := by decide

/-- WithByteReplacesExactlyOneBusByte, LittleEndianBytesMakeUpTheValue: the last byte of the widest register. -/
theorem witness_bytes : 3 ≤ 3 ∧ 2 < 3 ∧ 1 < 3 ∧ 1 ≠ 2 ∧ (0xFFFFFF#24 : RegValue).toNat < 2 ^ (8 * 3) := by decide

/-- DecodeOfEncodeIsTheInstruction, at the ends of a field and in the narrowest states. -/
theorem witness_decode_of_encode :
    (Instr.spiDataMreadExit 0xFF#8).wf = true ∧
    (Instr.spiDataMreadExit 0xFF#8).cond.holds (.spi true .multiRead) (dinField (encode (.spiDataMreadExit 0xFF#8))) = true ∧
    (Instr.spiCmdWrite 0x3F#6).cond.holds (.spi true .standby) (dinField (encode (.spiCmdWrite 0x3F#6))) = true ∧
    (Instr.i2cRbyteBad).cond.holds (.i2c .writing) (dinField (encode .i2cRbyteBad)) = true := by decide

/-- EncodeOfDecodeIsTheWord, DecodeAgreesWithTheOpcodeTable: a word with an ignored `din`, a `BYTE_IN`, a command row met
in multi-read, and a word no row takes. -/
theorem witness_decode :
    decode (.i2c .reading) 0x3FF#11 = .ok .i2cRbyte ∧ decode (.spi true .write) 0x2FF#11 = .ok (.spiDataWrite 0xFF#8) ∧
    evField 0x2FF#11 = 2#3 ∧
    (opcodeTable.any fun r => decide (r.cond = .spiCommand) && r.takes (.spi true .multiRead) 0x201#11) = true ∧
    (opcodeTable.all fun r => !r.takes (.spi true .standby) 0x3FF#11) = true ∧
    decode (.spi true .standby) 0x3FF#11 = .error .noMeaningOnSpi := by decide

/-- SpiCommandByteSelectsOperationAndNextMode: the four operations at the ends of their ranges. -/
theorem witness_command_bytes :
    (spiAt mapS ⟨.standby, 0x00#6, true⟩ [0x23F#11]).events = [inWord 0x3F#8] ∧ (0x3F#8 : Byte) >>> 6 = 0#8 ∧
    (0x40#8 : Byte) >>> 6 = 1#8 ∧ (0xBF#8 : Byte) >>> 6 = 2#8 ∧ (0xC0#8 : Byte) >>> 6 = 3#8 := by decide

/-- StepRunsTheDecodedInstruction: a word that decodes in its state, and an empty stream. -/
theorem witness_step :
    (i2cAt mapS ⟨0x07#8, false, 0#2, .writing⟩ [0x205#11, 0x400#11]).events = [0x205#11, 0x400#11] ∧
    decode (i2cAt mapS ⟨0x07#8, false, 0#2, .writing⟩ [0x205#11, 0x400#11]).context 0x205#11 = .ok (.i2cWbyteData 0x05#8) ∧
    State.reset.events = [] := by decide

/-- StepStopsOnlyOnMeaninglessWordsOrTheOpenWrap: each side. -/
theorem witness_stops :
    whyRefused (step (i2cAt mapS ⟨0#8, false, 0#2, .idle⟩ [0x7FF#11])) = some (.noMeaning .reservedKind) ∧
    whyRefused (step (spiAt mapS ⟨.standby, 0#6, true⟩ [0x100#11])) = some (.noMeaning .noMeaningOnSpi) ∧
    whyRefused (step (i2cAt mapS ⟨0#8, false, 0#2, .idle⟩ [0x5FF#11])) = none ∧
    whyRefused (step { spiAt mapS ⟨.multiRead, 63#6, true⟩ [0x200#11] with params := { spiAddrWrap := .refuse } }) =
      some .addrWrap := by decide

/-- PlacedTableWordRunsItsInstruction: a word that the present state reads as the same instruction, and one it does
not. -/
theorem witness_placed_words :
    decode (spiAt mapS ⟨.standby, 0x00#6, true⟩ []).context (tableWord 16 0x2C7) = .ok (.spiCmdMread 0x07#6) ∧
    decode State.reset.context (tableWord 16 0x2C7) ≠ .ok (.spiCmdMread 0x07#6) := by decide

/-- PlacedTableWordRunsItsInstruction: words with and without an instruction. -/
theorem witness_table_words :
    decodeTableWord 16 0x2C7 = some (.spiCmdMread 0x07#6) ∧ decodeTableWord 16 0x200 = some .spiDataMreadCont ∧
    decodeTableWord 16 0x300 = some .i2cRbyte ∧ decodeTableWord 16 0x600 = none ∧ decodeTableWord 16 0x800 = none := by
  decide

/-- ConstructionGivesTheResetTable, ResetStateIsValid: constructions that are accepted, on either bus. -/
theorem witness_construction :
    State.construct .i2c mapW { ptrReset := 0x06#8 } = .ok (State.fresh .i2c mapW { ptrReset := 0x06#8 }) ∧
    State.construct .spi [] {} = .ok (State.fresh .spi [] {}) ∧
    (⟨0x3F#8, 1, .rw, 0x55, .le⟩ : Descriptor) ∈ mapW := ⟨rfl, rfl, by decide⟩

/-- A valid state in the middle of a wide register, with a step that leaves it. -/
theorem witness_valid_i2c : Valid (i2cAt mapW ⟨0x03#8, false, 2#2, .writing⟩ [0x233#11]) :=
  ⟨by decide, by decide, ⟨by decide, by decide, by decide, by decide⟩⟩

/-- A valid state in which the map is exhausted. -/
theorem witness_valid_end : Valid (i2cAt mapW ⟨0x3F#8, true, 0#2, .reading⟩ [0x300#11]) :=
  ⟨by decide, by decide, ⟨by decide, by decide, by decide, by decide⟩⟩

/-- A valid SPI state in the middle of an operation. -/
theorem witness_valid_spi : Valid (spiAt mapW ⟨.write, 0x03#6, true⟩ [0x211#11]) :=
  ⟨by decide, by decide, fun h => absurd h (by decide)⟩

/-- PointerChangesOnlyByLoadAdvanceOrReset: the last byte of a register with another above it, and of the last one. -/
theorem witness_last_byte :
    (regsOf mapW).wf = true ∧
    TransfersLastByte (i2cAt mapW ⟨0x03#8, false, 2#2, .writing⟩ [0x233#11]) ⟨0x03#8, false, 2#2, .writing⟩ ∧
    (regsOf mapW).next 0x03#8 = some 0x06#8 ∧
    TransfersLastByte (i2cAt mapW ⟨0x3F#8, false, 0#2, .reading⟩ [0x300#11]) ⟨0x3F#8, false, 0#2, .reading⟩ ∧
    (regsOf mapW).next 0x3F#8 = none :=
  ⟨by decide, ⟨.inl ⟨0x33#8, by decide, rfl⟩, rfl, by decide⟩, by decide, ⟨.inr ⟨by decide, rfl⟩, rfl, by decide⟩,
    by decide⟩

/-- StepKeepsTheStateValid, StepNeverChangesTheConfiguration, PointerChangesOnlyByLoadAdvanceOrReset: those states take a
step. -/
theorem witness_steps_from_valid :
    (∃ t, step (i2cAt mapW ⟨0x03#8, false, 2#2, .writing⟩ [0x233#11]) = .next t) ∧
    (∃ t, step (i2cAt mapW ⟨0x3F#8, true, 0#2, .reading⟩ [0x300#11]) = .next t) ∧
    (∃ t, step (spiAt mapW ⟨.write, 0x03#6, true⟩ [0x211#11]) = .next t) := ⟨⟨_, rfl⟩, ⟨_, rfl⟩, ⟨_, rfl⟩⟩

/-- RegisterValueChangesOnlyByWriteOrReset: its hypotheses, and a register in each of its cases. -/
theorem witness_value_changes :
    (i2cAt mapW ⟨0x03#8, false, 2#2, .writing⟩ [0x233#11]).regs.lookup 0x03#8 =
      some ⟨⟨0x03#8, 3, .rw, 0xABCDEF, .le⟩, 0xABCDEF#24⟩ ∧
    nextEvent (i2cAt mapW ⟨0x03#8, false, 2#2, .writing⟩ [0x233#11]) = some (.byteIn 0x33#8) ∧
    nextEvent (i2cAt mapW ⟨0x03#8, false, 2#2, .writing⟩ [0x500#11]) = some .reset ∧
    nextEvent (spiAt mapW ⟨.write, 0x3F#6, true⟩ [0x211#11]) = some (.byteIn 0x11#8) ∧
    (0x3F#6 : SpiAddr).setWidth 8 = (0x3F#8 : RegAddr) := by decide

/-- NoRunChangesAReadOnlyRegister: a run that writes at a read-only register. -/
theorem witness_read_only_run :
    (i2cAt mapS ⟨0x00#8, false, 0#2, .writing⟩ [0x299#11, 0x500#11]).regs.roHeld = true ∧
    (runTrace 2 (i2cAt mapS ⟨0x00#8, false, 0#2, .writing⟩ [0x299#11, 0x500#11])).isSome = true ∧
    (i2cAt mapS ⟨0x00#8, false, 0#2, .writing⟩ [0x299#11, 0x500#11]).regs.lookup 0x00#8 =
      some ⟨⟨0x00#8, 1, .ro, 0x07, .le⟩, 0x07#24⟩ := by decide

/-- RegisterContentsNeverSteerTheEngine: two states that differ in a register value. -/
theorem witness_same_but_values :
    SameButValues (i2cAt mapS ⟨0x07#8, false, 0#2, .reading⟩ [0x300#11])
      { i2cAt mapS ⟨0x07#8, false, 0#2, .reading⟩ [0x300#11] with regs := (regsOf mapS).write 0x07#8 0x5A } ∧
    regsOf mapS ≠ (regsOf mapS).write 0x07#8 0x5A :=
  ⟨⟨rfl, by decide, rfl, rfl, rfl⟩, by decide⟩

/-- ResetIsIdempotentAndForgetsTheState, ResetEventForcesEverythingToDefaults: two different states of the same instance,
and one of each bus. -/
theorem witness_reset :
    (i2cAt mapS ⟨0x07#8, false, 0#2, .reading⟩ []).engine.bus = (i2cAt mapS ⟨0x0A#8, true, 0#2, .idle⟩ []).engine.bus ∧
    (i2cAt mapS ⟨0x07#8, false, 0#2, .reading⟩ []).regs.regMap = ((regsOf mapS).write 0x07#8 1).regMap ∧
    (∃ t, exec .reset (i2cAt mapS ⟨0x07#8, false, 0#2, .reading⟩ []) = .next t) ∧
    (∃ t, exec .reset (spiAt mapS ⟨.read, 0x07#6, true⟩ []) = .next t) := ⟨rfl, by decide, ⟨_, rfl⟩, ⟨_, rfl⟩⟩

/-- The I2C statements about one instruction: the engine premise; a read-write and a read-only register at the last byte
of the width; an undefined pointer; an exhausted one. -/
theorem witness_i2c_instructions :
    (i2cAt mapW ⟨0x03#8, false, 2#2, .writing⟩ []).engine = .i2c ⟨0x03#8, false, 2#2, .writing⟩ ∧
    (regsOf mapW).wf = true ∧
    (regsOf mapW).lookup 0x03#8 = some ⟨⟨0x03#8, 3, .rw, 0xABCDEF, .le⟩, 0xABCDEF#24⟩ ∧ (2#2 : BitVec 2).toNat < 3 ∧
    (regsOf mapW).lookup 0x01#8 = some ⟨⟨0x01#8, 2, .ro, 0x1234, .le⟩, 0x1234#24⟩ ∧ (1#2 : BitVec 2).toNat < 2 ∧
    (regsOf mapW).lookup 0x40#8 = none ∧ (regsOf mapW).next 0x40#8 = none ∧
    (i2cAt mapW ⟨0x40#8, false, 0#2, .reading⟩ []).engine = .i2c ⟨0x40#8, false, 0#2, .reading⟩ ∧
    (i2cAt mapW ⟨0x3F#8, true, 0#2, .reading⟩ []).engine = .i2c ⟨0x3F#8, true, 0#2, .reading⟩ := by decide

/-- `AfterByte` in its three cases: inside a register, on to the next, at the end of the map. -/
theorem witness_after_byte :
    AfterByte (regsOf mapW) 3 ⟨0x03#8, false, 1#2, .writing⟩ ⟨0x03#8, false, 2#2, .writing⟩ ∧
    AfterByte (regsOf mapW) 3 ⟨0x03#8, false, 2#2, .writing⟩ ⟨0x06#8, false, 0#2, .writing⟩ ∧
    AfterByte (regsOf mapW) 1 ⟨0x3F#8, false, 0#2, .writing⟩ ⟨0x3F#8, true, 0#2, .writing⟩ := by
  refine ⟨⟨fun _ => rfl, fun a h => ?_, fun h => ?_⟩, ⟨fun h => ?_, fun a _ h => ?_, fun _ h => ?_⟩,
    ⟨fun h => ?_, fun a _ h => ?_, fun _ _ => rfl⟩⟩
  · exact absurd h (by decide)
  · exact absurd h (by decide)
  · exact absurd h (by decide)
  · have h6 : (regsOf mapW).next 0x03#8 = some 0x06#8 := by decide
    rw [h6] at h; cases h; rfl
  · exact absurd h (by decide)
  · exact absurd h (by decide)
  · have hn : (regsOf mapW).next 0x3F#8 = none := by decide
    rw [hn] at h; cases h

/-- I2cPhaseTransitionsAreTheTable, ErrIsReportedExactlyForMalformedPairs, I2cEngineNeverAbortsATransaction: an event in
its phase, with the step it takes. -/
theorem witness_i2c_steps :
    nextEvent (i2cAt mapW ⟨0x03#8, false, 0#2, .addressing⟩ [0x2FF#11]) = some (.byteIn 0xFF#8) ∧
    nextEvent (i2cAt mapW ⟨0x03#8, false, 0#2, .reading⟩ [0x300#11]) = some .byteOutReq ∧
    (∃ t e', step (i2cAt mapW ⟨0x03#8, false, 0#2, .reading⟩ [0x300#11]) = .next t ∧ t.engine = .i2c e') ∧
    (∃ t, step (i2cAt mapW ⟨0x03#8, false, 0#2, .idle⟩ [0x207#11]) = .next t ∧ t.resp.ack = some .nack) :=
  ⟨by decide, by decide, ⟨_, _, rfl, rfl⟩, ⟨_, rfl, rfl⟩⟩

/-- I2cEngineNeverAbortsATransaction: a data byte and a request at an undefined pointer. -/
theorem witness_undefined_pointer :
    nextEvent (i2cAt mapW ⟨0x02#8, false, 0#2, .writing⟩ [0x299#11]) = some (.byteIn 0x99#8) ∧
    nextEvent (i2cAt mapW ⟨0x02#8, false, 0#2, .reading⟩ [0x300#11]) = some .byteOutReq ∧
    (regsOf mapW).lookup 0x02#8 = none := by decide

/-- ExhaustionLastsUntilPointerLoadOrReset: a read and a data byte of an exhausted pointer. -/
theorem witness_exhausted :
    (∃ t, step (i2cAt mapW ⟨0x3F#8, true, 0#2, .reading⟩ [0x300#11]) = .next t) ∧
    nextEvent (i2cAt mapW ⟨0x3F#8, true, 0#2, .reading⟩ [0x300#11]) = some .byteOutReq ∧
    nextEvent (i2cAt mapW ⟨0x3F#8, true, 0#2, .writing⟩ [0x255#11]) = some (.byteIn 0x55#8) ∧
    Phase.writing ≠ Phase.addressing := ⟨⟨_, rfl⟩, by decide, by decide, by decide⟩

/-- MalformedEventChangesOnlyTransientState: every pair of 60_exceptions.md R222 by its kind. -/
theorem witness_malformed :
    MalformedPair (i2cAt mapS ⟨0x07#8, false, 0#2, .idle⟩ [0x207#11]).engine (.byteIn 0x07#8) ∧
    MalformedPair (i2cAt mapS ⟨0x07#8, true, 0#2, .writing⟩ [0x300#11]).engine .byteOutReq ∧
    MalformedPair (spiAt mapS ⟨.standby, 0x07#6, false⟩ [0x2C7#11]).engine (.byteIn 0xC7#8) ∧
    Event.ofWord 0x207#11 = some (.byteIn 0x07#8) := ⟨.inl rfl, .inr (.inr rfl), rfl, by decide⟩

/-- The SPI statements about one instruction: the engine premise, addresses 62 and 63, a read-write, a read-only and an
undefined address, and a register of one byte. -/
theorem witness_spi_instructions :
    (spiAt mapW ⟨.multiRead, 62#6, true⟩ []).engine = .spi ⟨.multiRead, 62#6, true⟩ ∧ (62#6 : SpiAddr).toNat < 63 ∧
    (spiAt mapW ⟨.multiRead, 63#6, true⟩ []).engine = .spi ⟨.multiRead, 63#6, true⟩ ∧
    (spiAt mapW ⟨.multiRead, 63#6, true⟩ []).params.spiAddrWrap = .any ∧
    ({ spiAddrWrap := .wrap0 } : Params).spiAddrWrap = .wrap0 ∧ ({ spiAddrWrap := .refuse } : Params).spiAddrWrap = .refuse ∧
    (regsOf mapW).lookup ((0x3F#6 : SpiAddr).setWidth 8) = some ⟨⟨0x3F#8, 1, .rw, 0x55, .le⟩, 0x55#24⟩ ∧
    (regsOf mapW).lookup ((0x01#6 : SpiAddr).setWidth 8) = some ⟨⟨0x01#8, 2, .ro, 0x1234, .le⟩, 0x1234#24⟩ ∧
    (regsOf mapW).lookup ((0x02#6 : SpiAddr).setWidth 8) = none := by decide

/-- SpiCommandsStoreAddressAndEnterMode, SpiDataReadAnswersTheRegister: the words of their clauses on a step. -/
theorem witness_spi_words :
    (0x200#11 ||| (0x3F#6 : SpiAddr).setWidth 11) = 0x23F#11 ∧ (0x280#11 ||| (0x00#6 : SpiAddr).setWidth 11) = 0x280#11 ∧
    (0x2C0#11 ||| (0x07#6 : SpiAddr).setWidth 11) = 0x2C7#11 ∧ (0x200#11 ||| (0xFF#8 : Byte).setWidth 11) = 0x2FF#11 ∧
    (0x3F#6 : SpiAddr) ≠ 0#6 ∧
    (spiAt mapW ⟨.multiRead, 62#6, true⟩ [0x23F#11]).events = [0x23F#11] ∧
    (spiAt mapW ⟨.read, 62#6, true⟩ [0x2FF#11]).events = [0x2FF#11] := by decide

/-- SpiExitByteIsACommandInTheSameExchange: the four operations. -/
theorem witness_exit_bytes :
    (0x01#8 : Byte) >>> 6 = 0#8 ∧ (0x7F#8 : Byte) >>> 6 = 1#8 ∧ (0x80#8 : Byte) >>> 6 = 2#8 ∧ (0xFF#8 : Byte) >>> 6 = 3#8 ∧
    (spiAt mapW ⟨.multiRead, 62#6, true⟩ []).engine = .spi ⟨.multiRead, 62#6, true⟩ := by decide

/-- SpiModeTransitionsAreTheTable, SpiAnswersZeroButForReadData, SpiAddressChangesOnlyByCommandContinuationOrReset: a
continuation below and at address 63. -/
theorem witness_spi_steps :
    nextEvent (spiAt mapW ⟨.multiRead, 62#6, true⟩ [0x200#11]) = some (.byteIn 0x00#8) ∧
    (∃ t e', step (spiAt mapW ⟨.multiRead, 62#6, true⟩ [0x200#11]) = .next t ∧ t.engine = .spi e') ∧
    (∃ t e', step (spiAt mapW ⟨.multiRead, 63#6, true⟩ [0x200#11]) = .next t ∧ t.engine = .spi e') :=
  ⟨by decide, ⟨_, _, rfl, rfl⟩, ⟨_, _, rfl, rfl⟩⟩

/-- SpiAddressIsInvisibleInStandby: a command in standby. -/
theorem witness_standby :
    (spiAt mapW ⟨.standby, 62#6, true⟩ [0x247#11]).engine = .spi ⟨.standby, 62#6, true⟩ ∧
    ∃ t, step (spiAt mapW ⟨.standby, 62#6, true⟩ [0x247#11]) = .next t := ⟨rfl, ⟨_, rfl⟩⟩

/-- I2cReadBurstIsTheRegisterStream, I2cReadatReadsFromTheGivenAddress: the streams, from a state inside another
transaction; the bytes are 41_i2c_engine.md R150's example. -/
theorem witness_read_transactions :
    (i2cAt mapW ⟨0x00#8, false, 0#2, .writing⟩ (0x100#11 :: List.replicate 10 0x300#11)).events =
      Event.startRecv.word :: (List.replicate 10 Event.byteOutReq.word ++ []) ∧
    (i2cAt mapW ⟨0x3F#8, true, 0#2, .writing⟩ [0x000#11, 0x201#11, 0x400#11, 0x100#11, 0x300#11, 0x400#11]).events =
      i2cReadat 0x01#8 1 ++ [] ∧
    streamBytes (regsOf mapW) 0xFF#8 0x00#8 false 0 10 =
      [0x7A#8, 0x34#8, 0x12#8, 0xEF#8, 0xCD#8, 0xAB#8, 0x00#8, 0x00#8, 0x55#8, 0xFF#8] := by decide

/-- I2cWriteTransactionFillsTheRegister: the first register of 95_test_vectors.md P2, and the last of the map. -/
theorem witness_write_transaction :
    (regsOf mapW).lookup 0x03#8 = some ⟨⟨0x03#8, 3, .rw, 0xABCDEF, .le⟩, 0xABCDEF#24⟩ ∧
    [0x11#8, 0x22#8, 0x33#8].length = 3 ∧
    (i2cAt mapW ⟨0x00#8, false, 0#2, .idle⟩ [0x000#11, 0x203#11, 0x211#11, 0x222#11, 0x233#11, 0x400#11]).events =
      i2cWrite 0x03#8 [0x11#8, 0x22#8, 0x33#8] ++ [] ∧
    (regsOf mapW).next 0x3F#8 = none := by decide

/-- SpiMultiReadStreamsConsecutiveAddresses, SpiWriteThenReadReturnsTheByte: the streams of 95_test_vectors.md P3, and the
last address below the open wrap. -/
theorem witness_spi_transactions :
    (spiAt mapS ⟨.standby, 0x0A#6, true⟩ [0x2C7#11, 0x200#11, 0x200#11, 0x200#11, 0x200#11]).events =
      spiMrd 0x07#6 4 ++ [] ∧ (0x07#6 : SpiAddr).toNat + 4 ≤ 63 ∧ (0x3B#6 : SpiAddr).toNat + 4 ≤ 63 ∧
    (spiAt mapS ⟨.standby, 0x00#6, true⟩ [0x20A#11, 0x23C#11, 0x28A#11, 0x200#11]).events =
      spiWr 0x0A#6 0x3C#8 ++ (spiRd 0x0A#6 0x00#8 ++ []) ∧
    (regsOf mapS).lookup ((0x0A#6 : SpiAddr).setWidth 8) = some ⟨⟨0x0A#8, 1, .rw, 0xA0, .le⟩, 0xA0#24⟩ ∧
    (regsOf mapS).lookup ((0x08#6 : SpiAddr).setWidth 8) = none := by decide

end Sys2Proof.Tests
end

section
/-! PROOFS. The step by the event it is about, what it does to the Register File (10_state.md R22), and what it does to
`ptr` (10_state.md R25). -/

namespace Sys2Proof.Machine

variable {s t : State}

/-! ## The event of a step -/

theorem nextEvent_of_no_event (h : s.events = []) : nextEvent s = none := by simp [nextEvent, h]

theorem nextEvent_of_events {w : EventWord} {rest : List EventWord} (h : s.events = w :: rest) :
    nextEvent s = Event.ofWord w := by simp [nextEvent, h]

/-- A step with the I2C engine rests without an event, or does what the table says of its next event. -/
theorem step_i2c_nextEvent {e : I2cState} (he : s.engine = .i2c e) (h : step s = .next t) :
    (nextEvent s = none ∧ t = s) ∨
      ∃ rest ev, nextEvent s = some ev ∧ I2cStep (s.setEvents rest) e ev t := by
  obtain ⟨hno, ht⟩ | ⟨w, rest, ev, hev, hw, hs⟩ := step_i2c_cases he h
  · exact .inl ⟨nextEvent_of_no_event hno, ht⟩
  · exact .inr ⟨rest, ev, (nextEvent_of_events hev).trans hw, hs⟩

/-- A step with the SPI engine rests without an event, or does what the dispatch says of its next event. -/
theorem step_spi_nextEvent {e : SpiState} (he : s.engine = .spi e) (h : step s = .next t) :
    (nextEvent s = none ∧ t = s) ∨
      ∃ rest ev, nextEvent s = some ev ∧ SpiStep (s.setEvents rest) e ev t := by
  obtain ⟨hno, ht⟩ | ⟨w, rest, ev, hev, hw, hs⟩ := step_spi_cases he h
  · exact .inl ⟨nextEvent_of_no_event hno, ht⟩
  · exact .inr ⟨rest, ev, (nextEvent_of_events hev).trans hw, hs⟩

/-! ## What a step does to the Register File -/

/-- An event on the I2C engine keeps the Register File, resets it, or writes it at `ptr` as a data byte. -/
theorem I2cStep.regs_cases {e : I2cState} {ev : Event} (h : I2cStep s e ev t) :
    (t.regs = s.regs ∧ ev ≠ .reset) ∨ (t.regs = s.regs.reset ∧ ev = .reset) ∨
      ∃ b v, ev = .byteIn b ∧ e.phase = .writing ∧ e.ptrEnd = false ∧ t.regs = s.regs.write e.ptr v := by
  cases h
  case reset => exact .inr (.inl ⟨rfl, rfl⟩)
  case dataDefined b r hp he hl => exact .inr (.inr ⟨b, _, rfl, hp, he, rfl⟩)
  all_goals exact .inl ⟨rfl, nofun⟩

/-- An event on the SPI engine keeps the Register File, resets it, or writes it at `address` as a write-data byte. -/
theorem SpiStep.regs_cases {e : SpiState} {ev : Event} (h : SpiStep s e ev t) :
    (t.regs = s.regs ∧ ev ≠ .reset) ∨ (t.regs = s.regs.reset ∧ ev = .reset) ∨
      ∃ b v, ev = .byteIn b ∧ e.sel = true ∧ e.mode = .write ∧ t.regs = s.regs.write (spiRegAddr e.address) v := by
  cases h
  case reset => exact .inr (.inl ⟨rfl, rfl⟩)
  case dataWrite b hs hm => exact .inr (.inr ⟨b, _, rfl, hs, hm, rfl⟩)
  all_goals exact .inl ⟨rfl, nofun⟩

/-- The engine passes a data byte to the Register File's write path at address `a`: I2C writing at a pointer that is not
exhausted (41_i2c_engine.md R144), or SPI in a selected write (42_spi_engine.md R190). -/
def WritePathAt (g : Engine) (a : RegAddr) : Prop :=
  (∃ e : I2cState, g = .i2c e ∧ e.phase = .writing ∧ e.ptrEnd = false ∧ e.ptr = a) ∨
    (∃ e : SpiState, g = .spi e ∧ e.sel = true ∧ e.mode = .write ∧ e.address.setWidth 8 = a)

/-- A step keeps the Register File, resets it by RESET, or writes it by a data byte at the engine's write path. -/
theorem step_regs_cases (h : step s = .next t) :
    (t.regs = s.regs ∧ nextEvent s ≠ some .reset) ∨ (t.regs = s.regs.reset ∧ nextEvent s = some .reset) ∨
      ∃ b a v, nextEvent s = some (.byteIn b) ∧ WritePathAt s.engine a ∧ t.regs = s.regs.write a v := by
  cases he : s.engine with
  | i2c e =>
    obtain ⟨hn, rfl⟩ | ⟨rest, ev, hn, hs⟩ := step_i2c_nextEvent he h
    · exact .inl ⟨rfl, by simp [hn]⟩
    · obtain ⟨hr, hev⟩ | ⟨hr, rfl⟩ | ⟨b, v, rfl, hp, hend, hr⟩ := hs.regs_cases
      · exact .inl ⟨hr, by simpa [hn] using hev⟩
      · exact .inr (.inl ⟨hr, hn⟩)
      · exact .inr (.inr ⟨b, e.ptr, v, hn, .inl ⟨e, rfl, hp, hend, rfl⟩, hr⟩)
  | spi e =>
    obtain ⟨hn, rfl⟩ | ⟨rest, ev, hn, hs⟩ := step_spi_nextEvent he h
    · exact .inl ⟨rfl, by simp [hn]⟩
    · obtain ⟨hr, hev⟩ | ⟨hr, rfl⟩ | ⟨b, v, rfl, hsel, hm, hr⟩ := hs.regs_cases
      · exact .inl ⟨hr, by simpa [hn] using hev⟩
      · exact .inr (.inl ⟨hr, hn⟩)
      · exact .inr (.inr ⟨b, spiRegAddr e.address, v, hn, .inr ⟨e, rfl, hsel, hm, rfl⟩, hr⟩)

/-- Settles O19: the three things a step can do to the Register File, each seen at one address. -/
theorem registerValueChangesOnlyByWriteOrReset : Obligations.RegisterValueChangesOnlyByWriteOrReset := by
  refine ⟨fun d => ⟨rfl, rfl⟩, fun s t a r h hl => ?_⟩
  obtain ⟨hr, hev⟩ | ⟨hr, hev⟩ | ⟨b, p, v, hev, hw, hr⟩ := step_regs_cases h
  · exact ⟨r, hr ▸ hl, rfl, .inl ⟨rfl, hev⟩⟩
  · exact ⟨Register.fresh r.desc, by simp [hr, RegFile.lookup_reset, hl], rfl, .inr (.inl ⟨hev, rfl⟩)⟩
  · by_cases hc : a = p ∧ r.desc.access = .rw
    · obtain ⟨rfl, hrw⟩ := hc
      exact ⟨{ r with value := truncTo r.desc.width v }, by simp [hr, RegFile.lookup_write, hl, hrw], rfl,
        .inr (.inr ⟨hrw, b, hev, hw⟩)⟩
    · exact ⟨r, by simp [hr, RegFile.lookup_write, hl, hc], rfl, .inl ⟨rfl, by simp [hev]⟩⟩

/-! ## What a step does to the pointer -/

/-- At a width of one to three bytes the two-bit cursor reaches the width exactly at the last byte: a cursor of 3 wraps to
0, which is no width. -/
theorem cursor_succ_eq_width_iff {c : BitVec 2} {w : Nat} (h1 : 0 < w) (h3 : w ≤ 3) :
    (c + 1#2).toNat = w ↔ c.toNat + 1 = w := by
  have := c.isLt
  simp only [BitVec.toNat_add, BitVec.toNat_ofNat]
  omega

/-- A transferred byte moves the pointer to `RF.next` at the last byte of the register, if there is one, and keeps it
otherwise. No bound on the cursor is needed. -/
theorem consumeByte_ptr_cases {rf : RegFile} {w : Nat} (e : I2cState) (h1 : 0 < w) (h3 : w ≤ 3) :
    (e.cursor.toNat + 1 = w ∧ rf.next e.ptr = some (consumeByte rf w e).ptr) ∨
      ((consumeByte rf w e).ptr = e.ptr ∧ (e.cursor.toNat + 1 = w → rf.next e.ptr = none)) := by
  by_cases hw : e.cursor.toNat + 1 = w
  · have hc : consumeByte rf w e = advance rf e := by
      rw [consumeByte, if_pos ((cursor_succ_eq_width_iff h1 h3).2 hw), advance_cursor]
    obtain ⟨a, ha, hadv⟩ | ⟨hn, hadv⟩ := advance_cases rf e
    · exact .inl ⟨hw, by rw [hc, hadv, ha]⟩
    · exact .inr ⟨by rw [hc, hadv], fun _ => hn⟩
  · have hc : consumeByte rf w e = { e with cursor := e.cursor + 1#2 } := by
      rw [consumeByte, if_neg fun h => hw ((cursor_succ_eq_width_iff h1 h3).1 h)]
    exact .inr ⟨by rw [hc], fun h => absurd h hw⟩

/-- 10_state.md R25 for one step of the I2C engine `e` in `s` that leaves the pointer `p`: loaded, reset, advanced, or
kept where none of these is due. -/
def PointerRule (s : State) (e : I2cState) (p : RegAddr) : Prop :=
  (∃ b : Byte, nextEvent s = some (.byteIn b) ∧ e.phase = .addressing ∧ p = b) ∨
    (nextEvent s = some .reset ∧ p = s.params.ptrReset) ∨
    (TransfersLastByte s e ∧ s.regs.next e.ptr = some p) ∨
    (p = e.ptr ∧ nextEvent s ≠ some .reset ∧
      (∀ b : Byte, nextEvent s = some (.byteIn b) → e.phase ≠ .addressing) ∧
      (TransfersLastByte s e → s.regs.next e.ptr = none))

/-- The next event is a data byte or a read request in its own phase (41_i2c_engine.md R144, R146). -/
def TransfersByte (s : State) (e : I2cState) : Prop :=
  (∃ b : Byte, nextEvent s = some (.byteIn b) ∧ e.phase = .writing) ∨
    (nextEvent s = some .byteOutReq ∧ e.phase = .reading)

theorem transfersLastByte_iff {e : I2cState} :
    TransfersLastByte s e ↔
      TransfersByte s e ∧ e.ptrEnd = false ∧ e.cursor.toNat + 1 = s.regs.widthAt e.ptr := Iff.rfl

theorem TransfersByte.not_reset {e : I2cState} (h : TransfersByte s e) : nextEvent s ≠ some .reset := by
  obtain ⟨b, hb, -⟩ | ⟨hb, -⟩ := h <;> simp [hb]

theorem TransfersByte.not_addressing {e : I2cState} (h : TransfersByte s e) : e.phase ≠ .addressing := by
  obtain ⟨b, -, hp⟩ | ⟨-, hp⟩ := h <;> simp [hp]

/-- A step that transfers no byte, loads no pointer and is no RESET has to keep the pointer. -/
theorem PointerRule.kept {e : I2cState} (hr : nextEvent s ≠ some .reset)
    (ha : ∀ b : Byte, nextEvent s = some (.byteIn b) → e.phase ≠ .addressing)
    (ht : TransfersByte s e → e.ptrEnd = true) : PointerRule s e e.ptr := by
  refine .inr (.inr (.inr ⟨rfl, hr, ha, fun hl => ?_⟩))
  obtain ⟨hx, hend, -⟩ := transfersLastByte_iff.1 hl
  simp [ht hx] at hend

/-- A byte transferred at the pointer, defined or not, moves the pointer as R25 says. -/
theorem PointerRule.consumed {e : I2cState} {w : Nat} (hwf : s.regs.wf = true) (hx : TransfersByte s e)
    (hend : e.ptrEnd = false) (hw : s.regs.widthAt e.ptr = w) : PointerRule s e (consumeByte s.regs w e).ptr := by
  subst hw
  obtain ⟨hc, hn⟩ | ⟨hp, hn⟩ :=
    consumeByte_ptr_cases (rf := s.regs) e (RegFile.widthAt_pos hwf e.ptr) (RegFile.widthAt_le hwf e.ptr)
  · exact .inr (.inr (.inl ⟨⟨hx, hend, hc⟩, hn⟩))
  · exact .inr (.inr (.inr ⟨hp, hx.not_reset, fun _ _ => hx.not_addressing, fun ⟨_, _, hc⟩ => hn hc⟩))

/-- Every cell of the I2C table obeys R25. -/
theorem I2cStep.pointerRule {e : I2cState} {ev : Event} {rest : List EventWord} (hwf : s.regs.wf = true)
    (he : s.engine = .i2c e) (hn : nextEvent s = some ev) (h : I2cStep (s.setEvents rest) e ev t) :
    ∃ e' : I2cState, t.engine = .i2c e' ∧ PointerRule s e e'.ptr := by
  cases h
  case pointer b hp => exact ⟨_, rfl, .inl ⟨b, hn, hp, rfl⟩⟩
  case reset => exact ⟨_, rfl, .inr (.inl ⟨hn, rfl⟩)⟩
  case dataUndefined b hp hend hl =>
    exact ⟨_, rfl, .consumed hwf (.inl ⟨b, hn, hp⟩) hend (RegFile.widthAt_of_undefined hl)⟩
  case dataDefined b r hp hend hl =>
    exact ⟨_, rfl, .consumed hwf (.inl ⟨b, hn, hp⟩) hend (RegFile.widthAt_of_lookup hl)⟩
  case readUndefined hp hend hl =>
    exact ⟨_, rfl, .consumed hwf (.inr ⟨hn, hp⟩) hend (RegFile.widthAt_of_undefined hl)⟩
  case readDefined r hp hend hl =>
    exact ⟨_, rfl, .consumed hwf (.inr ⟨hn, hp⟩) hend (RegFile.widthAt_of_lookup hl)⟩
  case dataAtEnd b hp hend =>
    exact ⟨e, he, .kept (by simp [hn]) (by simp [hp]) fun _ => hend⟩
  case readAtEnd hp hend =>
    exact ⟨e, he, .kept (by simp [hn]) (by simp [hp]) fun _ => hend⟩
  case malformedByte b hp =>
    exact ⟨_, rfl, .kept (by simp [hn]) (by rcases hp with hp | hp <;> simp [hp])
      (by rcases hp with hp | hp <;> simp [TransfersByte, hn, hp])⟩
  case malformedRequest hp =>
    exact ⟨_, rfl, .kept (by simp [hn]) (by simp [hn])
      (by rcases hp with hp | hp | hp <;> simp [TransfersByte, hn, hp])⟩
  case startSend | startRecv | stop =>
    exact ⟨_, rfl, .kept (by simp [hn]) (by simp [hn]) (by simp [TransfersByte, hn])⟩

/-- Settles O32: R25 read off every cell of the I2C table. -/
theorem pointerChangesOnlyByLoadAdvanceOrReset : Obligations.PointerChangesOnlyByLoadAdvanceOrReset := by
  intro s t e hwf he h
  obtain ⟨hn, rfl⟩ | ⟨rest, ev, hn, hs⟩ := step_i2c_nextEvent he h
  · exact ⟨e, he, PointerRule.kept (by simp [hn]) (by simp [hn]) (by simp [TransfersByte, hn])⟩
  · exact hs.pointerRule hwf he hn

end Sys2Proof.Machine
end

section
/-! PROOFS. A command byte by its operation (30_encoding.md R86): the instruction it decodes to, what that instruction does
to the SPI engine (42_spi_engine.md R183 to R186), and the step that runs it. -/

namespace Sys2Proof.Machine

variable {s t : State} {e e' : SpiState} {b : Byte} {i : Instr} {mode : Mode} {rest : List EventWord}

/-! ## The instruction of a command byte -/

theorem decodeCommand_of_shift_eq_zero (h : b >>> 6 = 0#8) : decodeCommand b = .spiCmdWrite (cmdAddr b) := by
  simp [decodeCommand, cmdOp_toNat, h]

theorem decodeCommand_of_shift_eq_one (h : b >>> 6 = 1#8) : decodeCommand b = .spiCmdNop01 (cmdAddr b) := by
  simp [decodeCommand, cmdOp_toNat, h]

theorem decodeCommand_of_shift_eq_two (h : b >>> 6 = 2#8) : decodeCommand b = .spiCmdRead (cmdAddr b) := by
  simp [decodeCommand, cmdOp_toNat, h]

theorem decodeCommand_of_shift_eq_three (h : b >>> 6 = 3#8) : decodeCommand b = .spiCmdMread (cmdAddr b) := by
  simp [decodeCommand, cmdOp_toNat, h]

/-! ## What the four commands do -/

@[simp] theorem enterCommand_engine (s : State) (e : SpiState) (mode : Mode) (a : SpiAddr) :
    (enterCommand s e mode a).engine = .spi { e with mode := mode, address := a } := rfl

theorem exec_spiCmdWrite (he : s.engine = .spi e) (a : SpiAddr) :
    exec (.spiCmdWrite a) s = .next (enterCommand s e .write a) := onSpi_eq he

theorem exec_spiCmdNop01 (he : s.engine = .spi e) (a : SpiAddr) :
    exec (.spiCmdNop01 a) s =
      .next ((s.setSpi { e with mode := .standby }).answer (Response.data spiIdleOut)) := onSpi_eq he

theorem exec_spiCmdRead (he : s.engine = .spi e) (a : SpiAddr) :
    exec (.spiCmdRead a) s = .next (enterCommand s e .read a) := onSpi_eq he

theorem exec_spiCmdMread (he : s.engine = .spi e) (a : SpiAddr) :
    exec (.spiCmdMread a) s = .next (enterCommand s e .multiRead a) := onSpi_eq he

/-! ## A byte in standby -/

/-- In the select window, standby takes a byte as a command (42_spi_engine.md R182). -/
theorem selectInstr_standby_byte (he : s.engine = .spi e) (hs : e.sel = true) (hm : e.mode = .standby) (b : Byte) :
    selectInstr s.context (.byteIn b) = .ok (decodeCommand b) := by
  simp [State.context, he, selectInstr, selectSpiByte, hs, hm]

/-- A delivered command byte decodes to its instruction, and the step ends where that instruction leaves the engine. -/
theorem standby_byte_runs_command (he : s.engine = .spi e) (hs : e.sel = true) (hm : e.mode = .standby)
    (hev : s.events = (Event.byteIn b).word :: rest) (hi : decodeCommand b = i)
    (hx : exec i (s.setEvents rest) = .next t) (ht : t.engine = .spi e') (hmode : e'.mode = mode) :
    decode s.context (Event.byteIn b).word = .ok i ∧
      ∃ t' e'', step s = .next t' ∧ t'.engine = .spi e'' ∧ e''.mode = mode := by
  have hsel : selectInstr s.context (.byteIn b) = .ok i := hi ▸ selectInstr_standby_byte he hs hm b
  exact ⟨(decode_word _ _).trans hsel, t, e', (step_of_event hev hsel).trans hx, ht, hmode⟩

/-- Settles O11: one clause for each of the four operations of R86. -/
theorem spiCommandByteSelectsOperationAndNextMode : Obligations.SpiCommandByteSelectsOperationAndNextMode := by
  intro s e b rest he hs hm hev
  have hrest : (s.setEvents rest).engine = .spi e := he
  refine ⟨fun h => ?write, fun h => ?nop01, fun h => ?read, fun h => ?multiRead⟩
  case write =>
    exact standby_byte_runs_command he hs hm hev (decodeCommand_of_shift_eq_zero h) (exec_spiCmdWrite hrest _) rfl rfl
  case nop01 =>
    exact standby_byte_runs_command he hs hm hev (decodeCommand_of_shift_eq_one h) (exec_spiCmdNop01 hrest _) rfl rfl
  case read =>
    exact standby_byte_runs_command he hs hm hev (decodeCommand_of_shift_eq_two h) (exec_spiCmdRead hrest _) rfl rfl
  case multiRead =>
    exact standby_byte_runs_command he hs hm hev (decodeCommand_of_shift_eq_three h) (exec_spiCmdMread hrest _) rfl rfl

end Sys2Proof.Machine
end

section
/-! PROOFS. The Register File operations at a register of the file and at an undefined address
(40_register_file.md R110 to R112). -/

namespace Sys2Proof.Machine

variable {rf : RegFile} {a : RegAddr} {r q : Register}

/-! ## RF.read -/

theorem RegFile.read_of_lookup (h : rf.lookup a = some r) : rf.read a = some (r.value, r.desc.width) := by
  rw [RegFile.read_eq, h, Option.map_some]

theorem RegFile.read_of_undefined (h : a ∉ rf.dom) : rf.read a = none := by
  rw [RegFile.read_eq, RegFile.lookup_eq_none_iff.2 h, Option.map_none]

/-- Settles O1: in a canonical file the look-up finds each register at its own address. -/
theorem rfReadAnswersRegisterOrUnknownAddress : Obligations.RfReadAnswersRegisterOrUnknownAddress := fun _ hwf =>
  ⟨fun _ hr => RegFile.read_of_lookup (RegFile.lookup_of_mem hwf hr), fun _ ha => RegFile.read_of_undefined ha⟩

/-! ## RF.write -/

/-- A canonical file holds one register per address. -/
theorem RegFile.eq_of_addr_eq (hwf : rf.wf = true) (hq : q ∈ rf) (hr : r ∈ rf) (h : q.desc.addr = r.desc.addr) :
    q = r := by
  have hl : rf.lookup r.desc.addr = some q := h ▸ RegFile.lookup_of_mem hwf hq
  exact Option.some.inj (hl.symm.trans (RegFile.lookup_of_mem hwf hr))

theorem RegFile.lookup_write_of_rw (hwf : rf.wf = true) (hr : r ∈ rf) (hrw : r.desc.access = .rw) (v : Nat) :
    (rf.write r.desc.addr v).lookup r.desc.addr = some { r with value := truncTo r.desc.width v } := by
  simp [RegFile.lookup_write, RegFile.lookup_of_mem hwf hr, hrw]

theorem RegFile.write_of_ro (hwf : rf.wf = true) (hr : r ∈ rf) (hro : r.desc.access = .ro) (v : Nat) :
    rf.write r.desc.addr v = rf :=
  RegFile.write_eq_self v fun _ hq h => RegFile.eq_of_addr_eq hwf hq hr h ▸ hro

theorem RegFile.write_of_undefined (h : a ∉ rf.dom) (v : Nat) : rf.write a v = rf :=
  RegFile.write_eq_self v fun _ hq hqa => absurd (List.mem_map.2 ⟨_, hq, hqa⟩) h

/-- Settles O2: one clause each for a read-write, a read-only and an undefined address, and the frame. -/
theorem rfWriteStoresTruncatedValueOrNothing : Obligations.RfWriteStoresTruncatedValueOrNothing := by
  intro rf hwf v
  refine ⟨fun r hr hrw => ?readWrite, fun r hr hro => ?readOnly, fun a ha => ?undefined, fun a b hab => ?otherAddress⟩
  case readWrite => exact RegFile.read_of_lookup (RegFile.lookup_write_of_rw hwf hr hrw v)
  case readOnly => exact RegFile.write_of_ro hwf hr hro v
  case undefined => exact RegFile.write_of_undefined ha v
  case otherAddress => exact RegFile.lookup_write_other v hab.symm

/-! ## RF.reset -/

theorem RegFile.lookup_reset_of_mem (hwf : rf.wf = true) (hr : r ∈ rf) :
    rf.reset.lookup r.desc.addr = some (Register.fresh r.desc) := by
  rw [RegFile.lookup_reset, RegFile.lookup_of_mem hwf hr, Option.map_some]

/-- The map decides what a reset leaves, and a reset keeps the map. -/
theorem RegFile.reset_reset (rf : RegFile) : rf.reset.reset = rf.reset := by
  rw [RegFile.reset_eq_fresh, RegFile.reset_regMap, ← RegFile.reset_eq_fresh]

/-- Settles O3: each register reads as created, and its reset value lies inside its width. -/
theorem rfResetRestoresEveryRegister : Obligations.RfResetRestoresEveryRegister := by
  intro rf hwf
  refine ⟨fun r hr => ?_, RegFile.reset_regMap, RegFile.reset_reset rf⟩
  have hd : r.desc.wf = true := ((RegFile.wf_iff.1 hwf).2 r hr).1
  exact ⟨r.desc.resetValue, RegFile.read_of_lookup (RegFile.lookup_reset_of_mem hwf hr),
    Descriptor.resetValue_toNat hd⟩

end Sys2Proof.Machine
end

section
/-! PROOFS. An event on the I2C engine always completes, and what the answer is inside an open transaction
(41_i2c_engine.md R140, R152). -/

namespace Sys2Proof.Machine

variable {s t : State} {e : I2cState} {ev : Event} {b : Byte}

/-! ## Every event completes -/

theorem execI2cWbyteData_completes (he : s.engine = .i2c e) (b : Byte) : ∃ t, execI2cWbyteData b s = .next t := by
  rw [execI2cWbyteData, onI2c_eq he]
  cases e.ptrEnd with
  | true => exact ⟨_, rfl⟩
  | false => cases s.regs.lookup e.ptr <;> exact ⟨_, rfl⟩

theorem execI2cRbyte_completes (he : s.engine = .i2c e) : ∃ t, execI2cRbyte s = .next t := by
  rw [execI2cRbyte, onI2c_eq he]
  cases e.ptrEnd with
  | true => exact ⟨_, rfl⟩
  | false => cases s.regs.lookup e.ptr <;> exact ⟨_, rfl⟩

/-- Every cell of the table of 41_i2c_engine.md R140 holds an instruction, and it completes. -/
theorem exec_i2c_completes (he : s.engine = .i2c e) (ev : Event) :
    ∃ i, selectInstr (.i2c e.phase) ev = .ok i ∧ ∃ t, exec i s = .next t := by
  cases ev with
  | start | startRecv | stop => exact ⟨_, rfl, _, onI2c_eq he⟩
  | reset => exact ⟨_, rfl, _, rfl⟩
  | byteIn b =>
    cases e.phase with
    | idle | addressing | reading => exact ⟨_, rfl, _, onI2c_eq he⟩
    | writing => exact ⟨_, rfl, execI2cWbyteData_completes he b⟩
  | byteOutReq =>
    cases e.phase with
    | idle | addressing | writing => exact ⟨_, rfl, _, onI2c_eq he⟩
    | reading => exact ⟨_, rfl, execI2cRbyte_completes he⟩

theorem events_of_nextEvent (hn : nextEvent s = some ev) :
    ∃ w rest, s.events = w :: rest ∧ Event.ofWord w = some ev := by
  cases hev : s.events with
  | nil => simp [nextEvent_of_no_event hev] at hn
  | cons w rest => exact ⟨w, rest, rfl, (nextEvent_of_events hev).symm.trans hn⟩

/-- A step that goes on from a state with an event is that event's cell of the table. -/
theorem i2cStep_of_step (he : s.engine = .i2c e) (hn : nextEvent s = some ev) (h : step s = .next t) :
    ∃ rest, I2cStep (s.setEvents rest) e ev t := by
  obtain ⟨hno, -⟩ | ⟨rest, ev', hn', hs⟩ := step_i2c_nextEvent he h
  · simp [hn] at hno
  · obtain rfl : ev = ev' := Option.some.inj (hn.symm.trans hn')
    exact ⟨rest, hs⟩

/-- On the I2C engine every event is stepped: nothing is refused. -/
theorem step_i2c_completes (he : s.engine = .i2c e) (hn : nextEvent s = some ev) :
    ∃ t rest, step s = .next t ∧ I2cStep (s.setEvents rest) e ev t := by
  obtain ⟨w, rest, hev, hw⟩ := events_of_nextEvent hn
  obtain ⟨i, hi, t, hx⟩ := exec_i2c_completes (s := s.setEvents rest) he ev
  have hd : decode s.context w = .ok i := by simp [decode, hw, State.context, he, hi]
  have hs : step s = .next t := (step_of_decode hev hd).trans hx
  obtain ⟨rest', hstep⟩ := i2cStep_of_step he hn hs
  exact ⟨t, rest', hs, hstep⟩

/-! ## The answer inside a transaction -/

/-- A byte of an open send transaction is accepted and leaves the transaction open; without a register at `ptr` it
changes none. -/
theorem I2cStep.byte_accepted (h : I2cStep s e (.byteIn b) t) (he : s.engine = .i2c e)
    (hp : e.phase = .addressing ∨ e.phase = .writing) :
    t.resp = Response.accepted ∧ (∃ e', t.engine = .i2c e' ∧ e'.phase = .writing) ∧
      (s.regs.lookup e.ptr = none → t.regs = s.regs) := by
  cases h with
  | pointer => exact ⟨rfl, ⟨_, rfl, rfl⟩, fun _ => rfl⟩
  | dataAtEnd _ hw => exact ⟨rfl, ⟨e, he, hw⟩, fun _ => rfl⟩
  | dataUndefined _ hw => exact ⟨rfl, ⟨_, rfl, (consumeByte_frame s.regs 1 e).1.trans hw⟩, fun _ => rfl⟩
  | dataDefined _ r hw _ hl =>
    exact ⟨rfl, ⟨_, rfl, (consumeByte_frame s.regs r.desc.width e).1.trans hw⟩, fun hno => by simp [hl] at hno⟩
  | malformedByte _ hbad => rcases hp with hp | hp <;> simp [hp] at hbad

/-- A request of an open receive transaction is answered by a byte and leaves the transaction open; without a register
at `ptr` the byte is the filler. -/
theorem I2cStep.request_answered (h : I2cStep s e .byteOutReq t) (he : s.engine = .i2c e)
    (hp : e.phase = .reading) :
    ∃ d, t.resp = Response.data d ∧ (∃ e', t.engine = .i2c e' ∧ e'.phase = .reading) ∧
      (s.regs.lookup e.ptr = none → d = s.params.i2cFiller) := by
  cases h with
  | readAtEnd => exact ⟨_, rfl, ⟨e, he, hp⟩, fun _ => rfl⟩
  | readUndefined => exact ⟨_, rfl, ⟨_, rfl, (consumeByte_frame s.regs 1 e).1.trans hp⟩, fun _ => rfl⟩
  | readDefined r _ _ hl =>
    exact ⟨_, rfl, ⟨_, rfl, (consumeByte_frame s.regs r.desc.width e).1.trans hp⟩, fun hno => by simp [hl] at hno⟩
  | malformedRequest hbad => simp [hp] at hbad

/-- The one cell that answers `NACK` is the malformed byte. -/
theorem I2cStep.byte_of_nack (h : I2cStep s e ev t) (hack : t.resp.ack = some .nack) :
    (∃ b, ev = .byteIn b) ∧ (e.phase = .idle ∨ e.phase = .reading) := by
  cases h
  case malformedByte b hp => exact ⟨⟨b, rfl⟩, hp⟩
  all_goals simp at hack

/-- Settles O34: a step exists, and R140's table gives its answer. -/
theorem i2cEngineNeverAbortsATransaction : Obligations.I2cEngineNeverAbortsATransaction := by
  intro s e he
  refine ⟨fun b hn hp => ?byte, fun hn hp => ?request, fun t ev hn h hack => ?nack⟩
  case byte =>
    obtain ⟨t, rest, h, hs⟩ := step_i2c_completes he hn
    obtain ⟨hresp, ⟨e', ht, hw⟩, hregs⟩ := hs.byte_accepted he hp
    exact ⟨t, e', h, hresp, ht, hw, hregs⟩
  case request =>
    obtain ⟨t, rest, h, hs⟩ := step_i2c_completes he hn
    obtain ⟨d, hresp, ⟨e', ht, hr⟩, hd⟩ := hs.request_answered he hp
    exact ⟨t, e', d, h, hresp, ht, hr, hd⟩
  case nack =>
    obtain ⟨rest, hs⟩ := i2cStep_of_step he hn h
    exact hs.byte_of_nack hack

end Sys2Proof.Machine
end

section
/-! PROOFS. A byte delivered to a selected SPI engine: its word as bits, the command byte it may be (30_encoding.md R80,
R85), and the step it makes as a command or as read data (42_spi_engine.md R183 to R187). -/

namespace Sys2Proof.Machine

variable {s : State} {e : SpiState} {b : Byte} {op : BitVec 2} {a : SpiAddr} {i : Instr}
  {rest : List EventWord}

/-! ## The word of a byte, and of a command byte -/

theorem word_byteIn_eq_or (b : Byte) : (Event.byteIn b).word = 0x200#11 ||| b.setWidth 11 := by
  rw [Event.word, eventWord, BitVec.append_def, BitVec.setWidth'_eq]
  rfl

theorem cmdByte_eq_or (op : BitVec 2) (a : SpiAddr) : cmdByte op a = op.shiftLeftZeroExtend 6 ||| a.setWidth 8 := by
  rw [cmdByte, BitVec.append_def, BitVec.setWidth'_eq]

/-- In the word of a command byte the event kind and the operation stand above the address. -/
theorem word_cmdByte_eq_or (op : BitVec 2) (a : SpiAddr) :
    (Event.byteIn (cmdByte op a)).word =
      (0x200#11 ||| (op.shiftLeftZeroExtend 6).setWidth 11) ||| a.setWidth 11 := by
  have haddr : (a.setWidth 8).setWidth 11 = a.setWidth 11 := BitVec.setWidth_setWidth (by decide)
  rw [word_byteIn_eq_or, cmdByte_eq_or, BitVec.setWidth_or, haddr, BitVec.or_assoc]

/-- Of the command bytes only the write to address 0 is the continuation byte (30_encoding.md R87). -/
theorem cmdByte_eq_spiCont_iff : cmdByte op a = spiCont ↔ op = 0#2 ∧ a = 0#6 := by
  have hcont : spiCont = cmdByte 0#2 0#6 := rfl
  constructor
  · intro h
    exact ⟨by simpa [hcont] using congrArg cmdOp h, by simpa [hcont] using congrArg cmdAddr h⟩
  · rintro ⟨rfl, rfl⟩
    rfl

/-! ## The step of a byte -/

/-- In multi-read, a byte that does not continue leaves it (42_spi_engine.md R182). -/
theorem selectInstr_multiRead_byte (he : s.engine = .spi e) (hs : e.sel = true) (hm : e.mode = .multiRead)
    (hb : b ≠ spiCont) : selectInstr s.context (.byteIn b) = .ok (.spiDataMreadExit b) := by
  simp [State.context, he, selectInstr, selectSpiByte, hs, hm, hb]

/-- In mode `read`, the next byte is the data exchange, whatever the byte is (42_spi_engine.md R182). -/
theorem selectInstr_read_byte (he : s.engine = .spi e) (hs : e.sel = true) (hm : e.mode = .read) (b : Byte) :
    selectInstr s.context (.byteIn b) = .ok (.spiDataRead b) := by
  simp [State.context, he, selectInstr, selectSpiByte, hs, hm]

/-- A step runs the command byte it meets in standby, and in multi-read unless the byte continues it: leaving multi-read
runs the same command in the same exchange (42_spi_engine.md R189). -/
theorem step_of_command_byte (he : s.engine = .spi e) (hs : e.sel = true)
    (hm : e.mode = .standby ∨ e.mode = .multiRead) (hb : e.mode = .multiRead → b ≠ spiCont)
    (hev : s.events = (Event.byteIn b).word :: rest) : step s = exec (decodeCommand b) (s.setEvents rest) := by
  rcases hm with hm | hm
  · exact step_of_event hev (selectInstr_standby_byte he hs hm b)
  · rw [step_of_event hev (selectInstr_multiRead_byte he hs hm (hb hm)), exec_exit_eq_command]

/-- A step runs the command of an operation and an address, met as a word. In multi-read the write to address 0 is left
out: its word is the continuation. -/
theorem step_of_command_word (he : s.engine = .spi e) (hs : e.sel = true)
    (hm : e.mode = .standby ∨ e.mode = .multiRead) (hi : decodeCommand (cmdByte op a) = i)
    (hb : e.mode = .multiRead → ¬ (op = 0#2 ∧ a = 0#6))
    (hev : s.events = ((0x200#11 ||| (op.shiftLeftZeroExtend 6).setWidth 11) ||| a.setWidth 11) :: rest) :
    step s = exec i (s.setEvents rest) := by
  rw [← word_cmdByte_eq_or] at hev
  rw [step_of_command_byte he hs hm (fun hmr => mt cmdByte_eq_spiCont_iff.1 (hb hmr)) hev, hi]

/-- Settles O38: the three effects, then each operation's word met by the step. -/
theorem spiCommandsStoreAddressAndEnterMode : Obligations.SpiCommandsStoreAddressAndEnterMode := by
  intro s e a he
  refine ⟨exec_spiCmdWrite he a, exec_spiCmdRead he a, exec_spiCmdMread he a, fun rest hs hm => ?_⟩
  refine ⟨fun hev ha => ?write, fun hev => ?read, fun hev => ?multiRead⟩
  case write =>
    exact step_of_command_word (op := 0#2) he hs hm (by simp [decodeCommand]) (by simpa using ha) hev
  case read =>
    exact step_of_command_word (op := 2#2) he hs hm (by simp [decodeCommand]) (by simp) hev
  case multiRead =>
    exact step_of_command_word (op := 3#2) he hs hm (by simp [decodeCommand]) (by simp) hev

/-- Settles O40: the read instruction's own effect, `spi_read` without a register, and the dispatch in mode `read`. -/
theorem spiDataReadAnswersTheRegister : Obligations.SpiDataReadAnswersTheRegister := by
  intro s e b he
  refine ⟨onSpi_eq he, fun hl => spiRead_of_undefined hl, fun rest hs hm hev => ?_⟩
  have hword : s.events = (Event.byteIn b).word :: rest := by rw [hev, word_byteIn_eq_or]
  exact step_of_event hword (selectInstr_read_byte he hs hm b)

end Sys2Proof.Machine
end

section
/-! PROOFS. The decoder against the encoder and the opcode table (30_encoding.md R80 to R88): in which contexts a row's
condition holds, what the decoder selects there, and which words a row's mask takes. -/

namespace Sys2Proof

variable {ctx : Context} {ev : Event} {i : Instr} {din : Byte} {w : EventWord}

/-! ## The contexts of a row's condition -/

theorem When.holds_i2cAny : When.i2cAny.holds ctx din = true ↔ ∃ p, ctx = .i2c p := by
  cases ctx <;> simp [When.holds]

theorem When.holds_i2cPhase {ps : List Phase} :
    (When.i2cPhase ps).holds ctx din = true ↔ ∃ p ∈ ps, ctx = .i2c p := by
  cases ctx <;> simp [When.holds]

theorem When.holds_spiAny : When.spiAny.holds ctx din = true ↔ ∃ sel m, ctx = .spi sel m := by
  cases ctx <;> simp [When.holds]

theorem When.holds_spiUnselected : When.spiUnselected.holds ctx din = true ↔ ∃ m, ctx = .spi false m := by
  cases ctx <;> simp [When.holds]

theorem When.holds_spiMode {m : Mode} : (When.spiMode m).holds ctx din = true ↔ ctx = .spi true m := by
  cases ctx <;> simp [When.holds]

theorem When.holds_spiExit :
    When.spiExit.holds ctx din = true ↔ ctx = .spi true .multiRead ∧ din ≠ spiCont := by
  cases ctx <;> simp [When.holds, spiCont]

theorem When.holds_spiCommand :
    When.spiCommand.holds ctx din = true ↔
      ctx = .spi true .standby ∨ (ctx = .spi true .multiRead ∧ din ≠ spiCont) := by
  cases ctx <;> simp [When.holds, spiCont, and_or_left, and_assoc]

/-! ## A word and a command byte are their fields -/

theorem evField_getLsbD (w : EventWord) {j : Nat} (h : j < 3) : (evField w).getLsbD j = w.getLsbD (8 + j) := by
  simp only [evField, BitVec.getLsbD_extractLsb', h, decide_true, Bool.true_and]

theorem dinField_getLsbD (w : EventWord) {j : Nat} (h : j < 8) : (dinField w).getLsbD j = w.getLsbD j := by
  simp only [dinField, BitVec.getLsbD_extractLsb', h, decide_true, Bool.true_and, Nat.zero_add]

theorem cmdOp_getLsbD (b : Byte) {j : Nat} (h : j < 2) : (cmdOp b).getLsbD j = b.getLsbD (6 + j) := by
  simp only [cmdOp, BitVec.getLsbD_extractLsb', h, decide_true, Bool.true_and]

theorem eventWord_evField_dinField (w : EventWord) : eventWord (evField w) (dinField w) = w := by
  apply BitVec.eq_of_getLsbD_eq
  intro j hj
  rw [eventWord_getLsbD]
  split
  · next h => exact dinField_getLsbD w h
  · rw [evField_getLsbD w (by omega), Nat.add_sub_cancel' (by omega)]

theorem cmdByte_cmdOp_cmdAddr (b : Byte) : cmdByte (cmdOp b) (cmdAddr b) = b := by
  apply BitVec.eq_of_getLsbD_eq
  intro j hj
  rw [cmdByte_getLsbD]
  split
  · next h => exact cmdAddr_getLsbD b j h
  · rw [cmdOp_getLsbD b (by omega), Nat.add_sub_cancel' (by omega)]

/-- The decoder has one command for each operation (30_encoding.md R86). -/
theorem decodeCommand_cases (b : Byte) :
    (cmdOp b = 0#2 ∧ decodeCommand b = .spiCmdWrite (cmdAddr b)) ∨
      (cmdOp b = 1#2 ∧ decodeCommand b = .spiCmdNop01 (cmdAddr b)) ∨
      (cmdOp b = 2#2 ∧ decodeCommand b = .spiCmdRead (cmdAddr b)) ∨
      (cmdOp b = 3#2 ∧ decodeCommand b = .spiCmdMread (cmdAddr b)) := by
  have hop : ∀ op : BitVec 2, op = 0#2 ∨ op = 1#2 ∨ op = 2#2 ∨ op = 3#2 := by decide
  rcases hop (cmdOp b) with h | h | h | h <;> simp [decodeCommand, h]

/-! ## What the decoder selects -/

/-- A well-formed instruction is what its own event selects wherever its condition holds. -/
theorem selectInstr_event (hwf : i.wf = true) (hc : i.cond.holds ctx din = true) :
    selectInstr ctx i.event = .ok i := by
  cases i
  case i2cStartSend | i2cStartRecv | i2cStop => obtain ⟨p, rfl⟩ := When.holds_i2cAny.1 hc; rfl
  case i2cWbytePtr | i2cWbyteData | i2cRbyte | i2cWbyteBad | i2cRbyteBad =>
    obtain ⟨p, hp, rfl⟩ := When.holds_i2cPhase.1 hc
    fin_cases hp <;> rfl
  case reset => cases ctx <;> rfl
  case spiSelect | spiDeselect => obtain ⟨sel, m, rfl⟩ := When.holds_spiAny.1 hc; rfl
  case spiCmdWrite | spiCmdNop01 | spiCmdRead | spiCmdMread =>
    obtain rfl := When.holds_spiMode.1 hc
    simp [Instr.event, selectInstr, selectSpiByte, decodeCommand]
  case spiDataRead | spiDataWrite | spiDataMreadCont => obtain rfl := When.holds_spiMode.1 hc; rfl
  case spiDataMreadExit b =>
    obtain rfl := When.holds_spiMode.1 hc
    have hb : b ≠ spiCont := of_decide_eq_true hwf
    simp [Instr.event, selectInstr, selectSpiByte, hb]
  case spiXferBad => obtain ⟨m, rfl⟩ := When.holds_spiUnselected.1 hc; rfl

/-- Settles O7: the word of an instruction names its event, and the event selects the instruction. -/
theorem decodeOfEncodeIsTheInstruction : Obligations.DecodeOfEncodeIsTheInstruction := fun i ctx hwf hc =>
  (decode_word ctx i.event).trans (selectInstr_event hwf hc)

/-- A byte in the select window selects an instruction of that mode, which carries the byte. -/
theorem selectSpiByte_sound (m : Mode) (b : Byte) :
    (selectSpiByte true m b).wf = true ∧
      (∀ din, (selectSpiByte true m b).cond.holds (.spi true m) din = true) ∧
      (selectSpiByte true m b).event = .byteIn b := by
  cases m with
  | standby =>
    have hb := cmdByte_cmdOp_cmdAddr b
    obtain ⟨hop, hd⟩ | ⟨hop, hd⟩ | ⟨hop, hd⟩ | ⟨hop, hd⟩ := decodeCommand_cases b <;> rw [hop] at hb <;>
      simp only [selectSpiByte, if_true, hd] <;> exact ⟨rfl, fun _ => rfl, congrArg Event.byteIn hb⟩
  | read | write => exact ⟨rfl, fun _ => rfl, rfl⟩
  | multiRead =>
    by_cases hb : b = spiCont
    · subst hb
      exact ⟨rfl, fun _ => rfl, rfl⟩
    · simp only [selectSpiByte, if_true, hb, if_false]
      exact ⟨decide_eq_true hb, fun _ => rfl, rfl⟩

/-- What an event selects is well formed, belongs to this context whatever the `din` field holds, and carries the
event. -/
theorem selectInstr_sound (h : selectInstr ctx ev = .ok i) :
    i.wf = true ∧ (∀ din, i.cond.holds ctx din = true) ∧ i.event = ev := by
  cases ctx with
  | i2c p =>
    cases ev with
    | byteIn b => cases h; cases p <;> exact ⟨rfl, fun _ => rfl, rfl⟩
    | byteOutReq => cases h; cases p <;> exact ⟨rfl, fun _ => rfl, rfl⟩
    | start | startRecv | stop | reset => cases h; exact ⟨rfl, fun _ => rfl, rfl⟩
  | spi sel m =>
    cases ev with
    | byteIn b =>
      cases h
      cases sel with
      | false => exact ⟨rfl, fun _ => rfl, rfl⟩
      | true => exact selectSpiByte_sound m b
    | start | stop | reset => cases h; exact ⟨rfl, fun _ => rfl, rfl⟩
    | startRecv | byteOutReq => cases h

/-! ## The word and its event -/

/-- The event kind of R81's numbering. -/
def Event.kind : Event → BitVec 3
  | .start => 0#3
  | .startRecv => 1#3
  | .byteIn _ => 2#3
  | .byteOutReq => 3#3
  | .stop => 4#3
  | .reset => 5#3

/-- The event with another data byte, where it carries one. -/
def Event.withDin (din : Byte) : Event → Event
  | .byteIn _ => .byteIn din
  | ev => ev

@[simp] theorem evField_word (ev : Event) : evField ev.word = ev.kind := by
  cases ev <;> exact evField_eventWord _ _

/-- A word names the event of its kind, with the byte it carries (30_encoding.md R81). -/
theorem ofWord_eq_some_iff :
    Event.ofWord w = some ev ↔ evField w = ev.kind ∧ ev.withDin (dinField w) = ev := by
  constructor
  · intro h
    unfold Event.ofWord at h
    split at h <;> cases h <;> exact ⟨BitVec.eq_of_toNat_eq ‹_›, rfl⟩
  · rintro ⟨hk, hb⟩
    cases ev with
    | byteIn b => rw [← hb]; simp [Event.ofWord, hk, Event.kind, Event.withDin]
    | start | startRecv | byteOutReq | stop | reset => simp [Event.ofWord, hk, Event.kind]

/-- The word of a byte is the byte under its kind. -/
theorem ofWord_eq_byteIn_iff {b : Byte} : Event.ofWord w = some (.byteIn b) ↔ w = (Event.byteIn b).word := by
  refine ⟨fun h => ?_, fun h => h ▸ Event.ofWord_word _⟩
  obtain ⟨hk, hb⟩ := ofWord_eq_some_iff.1 h
  rw [← hb, ← eventWord_evField_dinField w, hk, Event.withDin, Event.word, dinField_eventWord]
  rfl

/-- The two kinds that name no event (30_encoding.md R82). -/
theorem ofWord_eq_none_iff : Event.ofWord w = none ↔ evField w = 6#3 ∨ evField w = 7#3 := by
  have hkinds : ∀ k : BitVec 3,
      (k = 0#3 ∨ k = 1#3 ∨ k = 2#3 ∨ k = 3#3 ∨ k = 4#3 ∨ k = 5#3) ∨ k = 6#3 ∨ k = 7#3 := by decide
  rcases hkinds (evField w) with (h | h | h | h | h | h) | h | h <;> simp [Event.ofWord, h]

theorem decode_eq_ok_iff :
    decode ctx w = .ok i ↔ ∃ ev, Event.ofWord w = some ev ∧ selectInstr ctx ev = .ok i := by
  unfold decode
  cases Event.ofWord w <;> simp

/-- Settles O8: the decoder goes through the word's event, which is the event the instruction carries. -/
theorem encodeOfDecodeIsTheWord : Obligations.EncodeOfDecodeIsTheWord := by
  intro ctx w i h
  obtain ⟨ev, hw, hi⟩ := decode_eq_ok_iff.1 h
  obtain ⟨hwf, hc, rfl⟩ := selectInstr_sound hi
  have hk : evField w = i.event.kind := (ofWord_eq_some_iff.1 hw).1
  refine ⟨hwf, hc _, (evField_word i.event).trans hk.symm, fun h2 => ?_⟩
  rw [encode]
  cases hev : i.event with
  | byteIn b => exact (ofWord_eq_byteIn_iff.1 (hev ▸ hw)).symm
  | start | startRecv | byteOutReq | stop | reset =>
    rw [hev] at hk
    exact absurd (hk.symm.trans h2) (by decide)

end Sys2Proof
end

section
/-! PROOFS. The opcode table against the decoder (30_encoding.md section 5): which words a row takes, and that the row
it names is the one decoded. -/

namespace Sys2Proof

variable {ctx : Context} {i : Instr} {w : EventWord} {r : Row}

/-! ## The rows of the opcode table -/

/-- The row of an instruction: the constructors stand in the table's order. -/
def Instr.row (i : Instr) : Row := opcodeTable[i.ctorIdx]'(by cases i <;> exact of_decide_eq_true rfl)

theorem Instr.row_mem (i : Instr) : i.row ∈ opcodeTable := List.getElem_mem _

theorem Instr.row_mnemonic (i : Instr) : i.row.mnemonic = i.mnemonic := by cases i <;> rfl

theorem Row.takes_iff :
    r.takes ctx w = true ↔ w &&& r.mask = r.pattern ∧ r.cond.holds ctx (dinField w) = true := by
  simp [Row.takes]

/-- The mask `0x700` looks at the event kind alone. -/
theorem and_kindMask (w : EventWord) : w &&& 0x700#11 = eventWord (evField w) 0x00#8 := by
  have hm : ∀ j < 11, (0x700#11).getLsbD j = decide (8 ≤ j) := by decide
  apply BitVec.eq_of_getLsbD_eq
  intro j hj
  rw [BitVec.getLsbD_and, hm j hj, eventWord_getLsbD]
  by_cases h : j < 8
  · simp [h]
  · rw [if_neg h, evField_getLsbD w (by omega), Nat.add_sub_cancel' (by omega)]
    simp [Nat.le_of_not_lt h]

/-- The mask `0x7C0` looks at the event kind and the operation. -/
theorem and_commandMask (w : EventWord) :
    w &&& 0x7C0#11 = eventWord (evField w) (cmdByte (cmdOp (dinField w)) 0#6) := by
  have hm : ∀ j < 11, (0x7C0#11).getLsbD j = decide (6 ≤ j) := by decide
  apply BitVec.eq_of_getLsbD_eq
  intro j hj
  rw [BitVec.getLsbD_and, hm j hj, eventWord_getLsbD, cmdByte_getLsbD]
  by_cases h8 : j < 8
  · by_cases h6 : j < 6
    · rw [if_pos h8, if_pos h6]
      simp [h6]
    · rw [if_pos h8, if_neg h6, cmdOp_getLsbD _ (by omega), Nat.add_sub_cancel' (by omega), dinField_getLsbD w h8]
      simp [Nat.le_of_not_lt h6]
  · rw [if_neg h8, evField_getLsbD w (by omega), Nat.add_sub_cancel' (by omega)]
    simp [show 6 ≤ j by omega]

theorem eventWord_inj {k k' : BitVec 3} {b b' : Byte} : eventWord k b = eventWord k' b' ↔ k = k' ∧ b = b' := by
  refine ⟨fun h => ⟨?_, ?_⟩, fun ⟨hk, hb⟩ => by rw [hk, hb]⟩
  · simpa using congrArg evField h
  · simpa using congrArg dinField h

theorem cmdByte_inj {op op' : BitVec 2} {a a' : SpiAddr} :
    cmdByte op a = cmdByte op' a' ↔ op = op' ∧ a = a' := by
  refine ⟨fun h => ⟨?_, ?_⟩, fun ⟨hk, hb⟩ => by rw [hk, hb]⟩
  · simpa using congrArg cmdOp h
  · simpa using congrArg cmdAddr h

theorem word_withDin_zero (ev : Event) : (ev.withDin 0x00#8).word = eventWord ev.kind 0x00#8 := by cases ev <;> rfl

/-- A row with the mask `0x700` takes the words of its kind. -/
theorem Row.takes_kind_iff (ev : Event) (hm : r.mask = 0x700#11) (hp : r.pattern = (ev.withDin 0x00#8).word) :
    r.takes ctx w = true ↔ evField w = ev.kind ∧ r.cond.holds ctx (dinField w) = true := by
  rw [Row.takes_iff, hm, hp, and_kindMask, word_withDin_zero, eventWord_inj, and_iff_left rfl]

/-- A row with the mask `0x7C0` takes the command bytes of its operation. -/
theorem Row.takes_command_iff {op : BitVec 2} (hm : r.mask = 0x7C0#11)
    (hp : r.pattern = eventWord 2#3 (cmdByte op 0#6)) :
    r.takes ctx w = true ↔
      evField w = 2#3 ∧ cmdOp (dinField w) = op ∧ r.cond.holds ctx (dinField w) = true := by
  rw [Row.takes_iff, hm, hp, and_commandMask, eventWord_inj, cmdByte_inj, and_iff_left rfl, and_assoc]

/-- The row of the continuation takes the one word of its byte (30_encoding.md R87). -/
theorem Row.takes_continuation_iff :
    (Instr.row .spiDataMreadCont).takes ctx w = true ↔
      w = (Event.byteIn spiCont).word ∧ ctx = .spi true .multiRead := by
  have hall : w &&& (Instr.row .spiDataMreadCont).mask = w := BitVec.and_allOnes
  rw [Row.takes_iff, hall]
  exact and_congr Iff.rfl When.holds_spiMode

/-! ## The decoder and the table -/

/-- The row of a command takes its word in standby. -/
theorem Row.takes_command {op : BitVec 2} {a : SpiAddr} (hm : r.mask = 0x7C0#11)
    (hp : r.pattern = eventWord 2#3 (cmdByte op 0#6)) (hcond : r.cond = .spiCommand)
    (hw : Event.ofWord w = some (.byteIn (cmdByte op a)))
    (hc : (When.spiMode .standby).holds ctx (dinField w) = true) : r.takes ctx w = true := by
  obtain ⟨hk, hb⟩ := ofWord_eq_some_iff.1 hw
  have hop : cmdOp (dinField w) = op := by rw [Event.byteIn.inj hb, cmdOp_cmdByte]
  exact (Row.takes_command_iff hm hp).2 ⟨hk, hop, hcond ▸ When.holds_spiCommand.2 (.inl (When.holds_spiMode.1 hc))⟩

/-- The row of an instruction takes each word of its event, where the instruction's condition holds. -/
theorem Instr.row_takes (hwf : i.wf = true) (hw : Event.ofWord w = some i.event)
    (hc : i.cond.holds ctx (dinField w) = true) : i.row.takes ctx w = true := by
  obtain ⟨hk, hb⟩ := ofWord_eq_some_iff.1 hw
  cases i
  case spiCmdWrite | spiCmdNop01 | spiCmdRead | spiCmdMread => exact Row.takes_command rfl rfl rfl hw hc
  case spiDataMreadCont => exact Row.takes_continuation_iff.2 ⟨ofWord_eq_byteIn_iff.1 hw, When.holds_spiMode.1 hc⟩
  case spiDataMreadExit b =>
    have hdin : dinField w ≠ spiCont := by rw [Event.byteIn.inj hb]; exact of_decide_eq_true hwf
    exact (Row.takes_kind_iff (.byteIn b) rfl rfl).2 ⟨hk, When.holds_spiExit.2 ⟨When.holds_spiMode.1 hc, hdin⟩⟩
  all_goals exact (Row.takes_kind_iff (Instr.event _) rfl rfl).2 ⟨hk, hc⟩

/-- What the decoder has to give for a word that the row `r` takes: the row's instruction, or the exit from multi-read
for a command row (log entry 5). -/
def RowDecodes (r : Row) (ctx : Context) (w : EventWord) : Prop :=
  ∃ i : Instr, decode ctx w = .ok i ∧
    (i.mnemonic = r.mnemonic ∨ (r.cond = .spiCommand ∧ i = .spiDataMreadExit (dinField w)))

theorem RowDecodes.of_instr (hwf : i.wf = true) (hw : Event.ofWord w = some i.event)
    (hc : i.cond.holds ctx (dinField w) = true) : RowDecodes i.row ctx w :=
  ⟨i, decode_eq_ok_iff.2 ⟨_, hw, selectInstr_event hwf hc⟩, .inl i.row_mnemonic.symm⟩

/-- A row with the mask `0x700` and the condition of its instruction. -/
theorem RowDecodes.of_kind (i : Instr) (hm : i.row.mask = 0x700#11)
    (hp : i.row.pattern = (i.event.withDin 0x00#8).word) (hcond : i.row.cond = i.cond) (hwf : i.wf = true)
    (hb : i.event.withDin (dinField w) = i.event) (ht : i.row.takes ctx w = true) : RowDecodes i.row ctx w := by
  obtain ⟨hk, hc⟩ := (Row.takes_kind_iff i.event hm hp).1 ht
  exact .of_instr hwf (ofWord_eq_some_iff.2 ⟨hk, hb⟩) (hcond ▸ hc)

/-- A command row: its instruction in standby, the exit in multi-read. -/
theorem RowDecodes.of_command {op : BitVec 2} (hi : i.event = .byteIn (cmdByte op (cmdAddr (dinField w))))
    (hm : i.row.mask = 0x7C0#11) (hp : i.row.pattern = eventWord 2#3 (cmdByte op 0#6))
    (hcond : i.row.cond = .spiCommand) (hic : i.cond = .spiMode .standby) (hwf : i.wf = true)
    (ht : i.row.takes ctx w = true) : RowDecodes i.row ctx w := by
  obtain ⟨hk, rfl, hc⟩ := (Row.takes_command_iff hm hp).1 ht
  rw [cmdByte_cmdOp_cmdAddr] at hi
  have hw : Event.ofWord w = some (.byteIn (dinField w)) := ofWord_eq_some_iff.2 ⟨hk, rfl⟩
  obtain rfl | ⟨rfl, hdin⟩ := When.holds_spiCommand.1 (hcond ▸ hc)
  · exact .of_instr hwf (hi ▸ hw) (hic ▸ rfl)
  · have hs : selectInstr (.spi true .multiRead) (.byteIn (dinField w)) = .ok (.spiDataMreadExit (dinField w)) := by
      simp [selectInstr, selectSpiByte, hdin]
    exact ⟨_, decode_eq_ok_iff.2 ⟨_, hw, hs⟩, .inr ⟨hcond, rfl⟩⟩

theorem RowDecodes.of_continuation (ht : (Instr.row .spiDataMreadCont).takes ctx w = true) :
    RowDecodes (Instr.row .spiDataMreadCont) ctx w := by
  obtain ⟨hw, rfl⟩ := Row.takes_continuation_iff.1 ht
  exact .of_instr rfl (ofWord_eq_byteIn_iff.2 hw) rfl

theorem RowDecodes.of_exit (ht : (Instr.row (.spiDataMreadExit (dinField w))).takes ctx w = true) :
    RowDecodes (Instr.row (.spiDataMreadExit (dinField w))) ctx w := by
  obtain ⟨hk, hc⟩ := (Row.takes_kind_iff (.byteIn (dinField w)) rfl rfl).1 ht
  obtain ⟨rfl, hdin⟩ := When.holds_spiExit.1 hc
  exact .of_instr (decide_eq_true hdin) (ofWord_eq_some_iff.2 ⟨hk, rfl⟩) rfl

/-- Every row of the table, in the table's order. -/
theorem rowDecodes_of_takes (hr : r ∈ opcodeTable) (ht : r.takes ctx w = true) : RowDecodes r ctx w := by
  fin_cases hr
  · exact .of_kind .i2cStartSend rfl rfl rfl rfl rfl ht
  · exact .of_kind .i2cStartRecv rfl rfl rfl rfl rfl ht
  · exact .of_kind (.i2cWbytePtr (dinField w)) rfl rfl rfl rfl rfl ht
  · exact .of_kind (.i2cWbyteData (dinField w)) rfl rfl rfl rfl rfl ht
  · exact .of_kind (.i2cWbyteBad (dinField w)) rfl rfl rfl rfl rfl ht
  · exact .of_kind .i2cRbyte rfl rfl rfl rfl rfl ht
  · exact .of_kind .i2cRbyteBad rfl rfl rfl rfl rfl ht
  · exact .of_kind .i2cStop rfl rfl rfl rfl rfl ht
  · exact .of_kind .reset rfl rfl rfl rfl rfl ht
  · exact .of_kind .spiSelect rfl rfl rfl rfl rfl ht
  · exact .of_command (i := .spiCmdWrite (cmdAddr (dinField w))) rfl rfl rfl rfl rfl rfl ht
  · exact .of_command (i := .spiCmdNop01 (cmdAddr (dinField w))) rfl rfl rfl rfl rfl rfl ht
  · exact .of_command (i := .spiCmdRead (cmdAddr (dinField w))) rfl rfl rfl rfl rfl rfl ht
  · exact .of_command (i := .spiCmdMread (cmdAddr (dinField w))) rfl rfl rfl rfl rfl rfl ht
  · exact .of_kind (.spiDataRead (dinField w)) rfl rfl rfl rfl rfl ht
  · exact .of_continuation ht
  · exact .of_exit ht
  · exact .of_kind (.spiDataWrite (dinField w)) rfl rfl rfl rfl rfl ht
  · exact .of_kind (.spiXferBad (dinField w)) rfl rfl rfl rfl rfl ht
  · exact .of_kind .spiDeselect rfl rfl rfl rfl rfl ht

/-- A decoded instruction's own row takes the word. -/
theorem row_takes_of_decode (h : decode ctx w = .ok i) : i.row.takes ctx w = true := by
  obtain ⟨ev, hw, hi⟩ := decode_eq_ok_iff.1 h
  obtain ⟨hwf, hc, rfl⟩ := selectInstr_sound hi
  exact Instr.row_takes hwf hw (hc _)

/-- Settles O9: the row of what is decoded takes the word, and a row that takes the word is decoded; the third clause
follows from these two. -/
theorem decodeAgreesWithTheOpcodeTable : Obligations.DecodeAgreesWithTheOpcodeTable := by
  intro ctx w
  refine ⟨fun i h => ⟨i.row, i.row_mem, i.row_mnemonic, row_takes_of_decode h⟩,
    fun r hr ht => rowDecodes_of_takes hr ht, fun ⟨why, h⟩ r hr => ?refused, fun h => ?noRow⟩
  case refused =>
    refine Bool.eq_false_iff.2 fun ht => ?_
    obtain ⟨i, hi, -⟩ := rowDecodes_of_takes hr ht
    simp [hi] at h
  case noRow =>
    cases hd : decode ctx w with
    | error why => exact ⟨why, rfl⟩
    | ok i => simpa [h i.row i.row_mem] using row_takes_of_decode hd

/-- Settles O10: eight words of the spec, each evaluated in its context. -/
theorem wordsOfTheSpecDecodeAsItSays : Obligations.WordsOfTheSpecDecodeAsItSays := by
  unfold Obligations.WordsOfTheSpecDecodeAsItSays
  decide

end Sys2Proof
end

section
/-! PROOFS. The valid I2C engines: what keeps one inside its ranges (10_state.md R26, R27). -/

namespace Sys2Proof

open Sys2Proof.Machine

variable {rf rf' : RegFile} {e : I2cState}

/-- With the cursor at 0 only the exhausted condition has to be right. -/
theorem I2cValid.of_cursor_zero (hwf : rf.wf = true) (hc : e.cursor = 0#2)
    (hend : e.ptrEnd = true → rf.next e.ptr = none) : I2cValid rf e :=
  ⟨hc ▸ RegFile.widthAt_pos hwf e.ptr, fun _ => hc, fun _ => hc, hend⟩

theorem I2cValid.congr (hm : rf.regMap = rf'.regMap) (h : I2cValid rf e) : I2cValid rf' e :=
  ⟨RegFile.widthAt_congr hm ▸ h.cursor_inside, h.cursor_zero_outside_data, h.cursor_zero_at_end,
    RegFile.next_congr hm ▸ h.end_is_last⟩

theorem I2cValid.advance (hwf : rf.wf = true) (hend : e.ptrEnd = false) : I2cValid rf (advance rf e) := by
  obtain ⟨a, -, hadv⟩ | ⟨hn, hadv⟩ := advance_cases rf e
  · exact hadv ▸ .of_cursor_zero hwf rfl (by simp [hend])
  · exact hadv ▸ .of_cursor_zero hwf rfl fun _ => hn

/-- A byte transferred at the width of the pointer's register keeps the engine inside its ranges. -/
theorem I2cValid.consumeByte {w : Nat} (hwf : rf.wf = true) (hv : I2cValid rf e)
    (hend : e.ptrEnd = false) (hp : e.phase = .writing ∨ e.phase = .reading) (hw : rf.widthAt e.ptr = w) :
    I2cValid rf (consumeByte rf w e) := by
  subst hw
  have h3 := RegFile.widthAt_le hwf e.ptr
  obtain ⟨hlt, hc⟩ | ⟨-, hc⟩ := consumeByte_cases (rf := rf) hv.cursor_inside h3
  · have hcur := cursor_succ hv.cursor_inside h3
    rw [hc]
    refine ⟨hcur ▸ hlt, fun hout => ?_, by simp [hend], by simp [hend]⟩
    rcases hp with hp | hp <;> simp [hp] at hout
  · exact hc ▸ I2cValid.advance hwf hend

end Sys2Proof
end

section
/-! PROOFS. What is fixed over a step, construction and RESET, and the valid states (10_state.md R20 to R35,
20_memory.md R63, 70_reset_and_hazards.md R250 to R252). -/

namespace Sys2Proof.Machine

variable {s t : State} {rf rf' : RegFile} {ev : Event}

/-! ## What is fixed over a step -/

theorem step_regMap (h : step s = .next t) : t.regs.regMap = s.regs.regMap := by
  obtain ⟨hr, -⟩ | ⟨hr, -⟩ | ⟨b, a, v, -, -, hr⟩ := step_regs_cases h
  · rw [hr]
  · rw [hr, RegFile.reset_regMap]
  · rw [hr, RegFile.write_regMap]

theorem step_regs_wf (h : step s = .next t) (hwf : s.regs.wf = true) : t.regs.wf = true := by
  obtain ⟨hr, -⟩ | ⟨hr, -⟩ | ⟨b, a, v, -, -, hr⟩ := step_regs_cases h
  · rwa [hr]
  · exact hr ▸ RegFile.reset_wf hwf
  · exact hr ▸ RegFile.write_wf v hwf

theorem step_roHeld (h : step s = .next t) (hro : s.regs.roHeld = true) : t.regs.roHeld = true := by
  obtain ⟨hr, -⟩ | ⟨hr, -⟩ | ⟨b, a, v, -, -, hr⟩ := step_regs_cases h
  · rwa [hr]
  · exact hr ▸ RegFile.reset_roHeld
  · exact hr ▸ RegFile.write_roHeld v hro

theorem I2cStep.params_bus {e : I2cState} (he : s.engine = .i2c e) (h : I2cStep s e ev t) :
    t.params = s.params ∧ t.engine.bus = .i2c := by cases h <;> simp [he]

theorem SpiStep.params_bus {e : SpiState} (h : SpiStep s e ev t) : t.params = s.params ∧ t.engine.bus = .spi := by
  cases h <;> exact ⟨rfl, rfl⟩

theorem step_params_bus (h : step s = .next t) : t.params = s.params ∧ t.engine.bus = s.engine.bus := by
  cases he : s.engine with
  | i2c e =>
    obtain ⟨-, rfl⟩ | ⟨rest, ev, -, hs⟩ := step_i2c_nextEvent he h
    · simp [he]
    · exact I2cStep.params_bus (s := s.setEvents rest) he hs
  | spi e =>
    obtain ⟨-, rfl⟩ | ⟨rest, ev, -, hs⟩ := step_spi_nextEvent he h
    · simp [he]
    · exact hs.params_bus

/-- Settles O18: the parameters and the bus over every event, the map over every change of the Register File. -/
theorem stepNeverChangesTheConfiguration : Obligations.StepNeverChangesTheConfiguration := fun _ _ h =>
  have ⟨hp, hb⟩ := step_params_bus h
  ⟨hp, hb, step_regMap h⟩

/-! ## Read-only registers over a run -/

/-- A read-only register at its reset value stays over a step: its value is kept, or RESET restores it. -/
theorem step_lookup_of_ro {a : RegAddr} {r : Register} (h : step s = .next t) (hl : s.regs.lookup a = some r)
    (hro : r.desc.access = .ro) (hv : r.value = r.desc.resetValue) : t.regs.lookup a = some r := by
  obtain ⟨r', hl', hd, hval⟩ := registerValueChangesOnlyByWriteOrReset.2 s t a r h hl
  have heq : r'.value = r.value := by
    obtain ⟨hk, -⟩ | ⟨-, hk⟩ | ⟨hrw, -⟩ := hval
    · exact hk
    · exact hk.trans hv.symm
    · simp [hro] at hrw
  cases r; cases r'; cases hd; cases heq
  exact hl'

theorem runTrace_succ {n : Nat} {rs : List Response} (h : runTrace (n + 1) s = some (rs, t)) :
    ∃ u rs', step s = .next u ∧ runTrace n u = some (rs', t) ∧ rs = u.resp :: rs' := by
  unfold runTrace at h
  split at h
  · next u hu =>
    split at h
    · next rs' v hv => cases h; exact ⟨u, rs', hu, hv, rfl⟩
    · cases h
  · cases h
  · cases h

/-- Settles O20: by induction on the number of steps. -/
theorem noRunChangesAReadOnlyRegister : Obligations.NoRunChangesAReadOnlyRegister := by
  intro n s t rs a r hro hrun hl hacc
  have hv : r.value = r.desc.resetValue := RegFile.roHeld_iff.1 hro r (RegFile.mem_of_lookup hl) hacc
  refine ⟨?_, hv⟩
  clear hro
  induction n generalizing s rs with
  | zero => cases hrun; exact hl
  | succ n ih =>
    obtain ⟨u, rs', hu, hrest, -⟩ := runTrace_succ hrun
    exact ih u rs' hrest (step_lookup_of_ro hu hl hacc hv)

/-! ## Valid states -/

theorem I2cStep.valid {e : I2cState} (hwf : s.regs.wf = true) (he : s.engine = .i2c e) (hv : I2cValid s.regs e)
    (h : I2cStep s e ev t) : ∃ e', t.engine = .i2c e' ∧ I2cValid s.regs e' := by
  cases h
  case startSend | startRecv | stop | malformedByte | malformedRequest =>
    exact ⟨_, rfl, .of_cursor_zero hwf rfl hv.end_is_last⟩
  case pointer | reset => exact ⟨_, rfl, .of_cursor_zero hwf rfl nofun⟩
  case dataAtEnd | readAtEnd => exact ⟨e, he, hv⟩
  case dataUndefined b hp hend hl =>
    exact ⟨_, rfl, hv.consumeByte hwf hend (.inl hp) (RegFile.widthAt_of_undefined hl)⟩
  case readUndefined hp hend hl =>
    exact ⟨_, rfl, hv.consumeByte hwf hend (.inr hp) (RegFile.widthAt_of_undefined hl)⟩
  case dataDefined b r hp hend hl =>
    exact ⟨_, rfl, hv.consumeByte hwf hend (.inl hp) (RegFile.widthAt_of_lookup hl)⟩
  case readDefined r hp hend hl =>
    exact ⟨_, rfl, hv.consumeByte hwf hend (.inr hp) (RegFile.widthAt_of_lookup hl)⟩

theorem SpiStep.valid {e : SpiState} (h : SpiStep s e ev t) : ∃ e', t.engine = .spi e' ∧ SpiValid e' := by
  cases h
  case command b mode hs hm hop => exact ⟨_, rfl, fun hsel => by simp [hs] at hsel⟩
  case continuation a n hs hm ha => exact ⟨_, rfl, fun hsel => by simp [hs] at hsel⟩
  all_goals exact ⟨_, rfl, fun _ => rfl⟩

theorem step_engineValid (hv : Valid s) (h : step s = .next t) : EngineValid t.regs t.engine := by
  have hmap := step_regMap h
  obtain ⟨hwf, -, hev⟩ := hv
  cases he : s.engine with
  | i2c e =>
    rw [he] at hev
    obtain ⟨-, rfl⟩ | ⟨rest, ev, -, hs⟩ := step_i2c_nextEvent he h
    · exact he ▸ hev
    · obtain ⟨e', ht, hv'⟩ := I2cStep.valid (s := s.setEvents rest) hwf he hev hs
      exact ht ▸ I2cValid.congr hmap.symm hv'
  | spi e =>
    rw [he] at hev
    obtain ⟨-, rfl⟩ | ⟨rest, ev, -, hs⟩ := step_spi_nextEvent he h
    · exact he ▸ hev
    · obtain ⟨e', ht, hv'⟩ := hs.valid
      exact ht ▸ hv'

/-- Settles O17: the Register File and the engine each keep their part of the invariant. -/
theorem stepKeepsTheStateValid : Obligations.StepKeepsTheStateValid := fun _ _ hv h =>
  ⟨step_regs_wf h hv.regs_wf, step_roHeld h hv.ro_held, step_engineValid hv h⟩

/-! ## Construction -/

theorem Engine.fresh_valid (hwf : rf.wf = true) (p : Params) (bus : Bus) : EngineValid rf (Engine.fresh p bus) := by
  cases bus with
  | i2c => exact I2cValid.of_cursor_zero hwf rfl nofun
  | spi => exact fun _ => rfl

theorem State.fresh_valid {map : RegMap} (h : map.wf = true) (bus : Bus) (p : Params) :
    Valid (State.fresh bus map p) :=
  ⟨RegFile.fresh_wf h, RegFile.fresh_roHeld map, Engine.fresh_valid (RegFile.fresh_wf h) p bus⟩

theorem State.construct_eq_ok_iff {bus : Bus} {map : RegMap} {p : Params} :
    State.construct bus map p = .ok s ↔ map.wf = true ∧ s = State.fresh bus map p := by
  unfold State.construct
  split <;> simp [*, eq_comm]

/-- Settles O16: a constructed state is the fresh one of a well-formed map. -/
theorem resetStateIsValid : Obligations.ResetStateIsValid := by
  refine ⟨fun bus map p s h => ?_, State.fresh_valid (by decide) _ _⟩
  obtain ⟨hwf, rfl⟩ := State.construct_eq_ok_iff.1 h
  exact State.fresh_valid hwf bus p

theorem RegFile.fresh_regMap (m : RegMap) : RegFile.regMap (m.map Register.fresh) = m := by
  simp [RegFile.regMap, Register.fresh, Function.comp_def]

theorem RegFile.fresh_lookup {m : RegMap} {d : Descriptor} (hwf : m.wf = true) (hd : d ∈ m) :
    RegFile.lookup (m.map Register.fresh) d.addr = some (Register.fresh d) :=
  RegFile.lookup_of_mem (RegFile.fresh_wf hwf) (List.mem_map_of_mem hd)

/-- Settles O15: the constructor's two answers, and the reset table read off the fresh state. -/
theorem constructionGivesTheResetTable : Obligations.ConstructionGivesTheResetTable := by
  intro bus map p
  refine ⟨fun h => by simp [State.construct, h], fun hwf => ⟨State.fresh bus map p, ?_⟩⟩
  refine ⟨State.construct_eq_ok_iff.2 ⟨hwf, rfl⟩, rfl, RegFile.fresh_regMap map, fun d hd => ?_, ?_, ?_⟩
  · have hdwf : d.wf = true := List.all_eq_true.1 (Bool.and_eq_true_iff.1 hwf).2 d hd
    exact ⟨d.resetValue, RegFile.read_of_lookup (RegFile.fresh_lookup hwf hd), Descriptor.resetValue_toNat hdwf⟩
  · rintro rfl
    rfl
  · rintro rfl
    rfl

/-! ## RESET -/

/-- Settles O22: RESET is one update of the state, read field by field. -/
theorem resetEventForcesEverythingToDefaults : Obligations.ResetEventForcesEverythingToDefaults := by
  refine fun s => ⟨s.afterReset, rfl, rfl, fun a => RegFile.lookup_reset, fun e he => ?_, fun e he => ?_⟩
  · rw [State.afterReset_i2c he]
    rfl
  · rw [State.afterReset_spi he]
    rfl

theorem State.afterReset_afterReset (s : State) : s.afterReset.afterReset = s.afterReset := by
  simp only [State.afterReset, State.answer_regs, State.answer_engine, State.setEngine_regs, State.setEngine_engine,
    State.setRegs_regs, RegFile.reset_reset, State.answer_params, Engine.fresh_bus]
  rfl

/-- Settles O23: the map, the parameters and the bus decide what RESET leaves, and RESET keeps all three. -/
theorem resetIsIdempotentAndForgetsTheState : Obligations.ResetIsIdempotentAndForgetsTheState := by
  refine ⟨fun s t h => ?idempotent, fun s s' t t' hp hb hm h h' => ?forgets⟩
  case idempotent =>
    cases h
    exact congrArg Host.Outcome.next (State.afterReset_afterReset s)
  case forgets =>
    cases h
    cases h'
    simp only [State.afterReset_regs, State.afterReset_engine, State.afterReset_resp, RegFile.reset_eq_fresh, hp, hb,
      hm, and_self]

end Sys2Proof.Machine
end

section
/-! PROOFS. The order of the defined addresses (40_register_file.md R113) and the bytes of a register value (R114, R115;
42_spi_engine.md R193). -/

namespace Sys2Proof.Machine

variable {rf : RegFile} {a b : RegAddr} {bs : List RegAddr} {r : Register}

/-! ## RF.next -/

/-- `b` is the least of the addresses above `a`. -/
def LeastAbove (a : RegAddr) (bs : List RegAddr) (b : RegAddr) : Prop := b ∈ bs ∧ a < b ∧ ∀ c ∈ bs, a < c → b ≤ c

theorem LeastAbove.unique {b' : RegAddr} (h : LeastAbove a bs b) (h' : LeastAbove a bs b') : b = b' :=
  BitVec.le_antisymm (h.2.2 b' h'.1 h'.2.1) (h'.2.2 b h.1 h.2.1)

theorem leastAbove_eq_none_iff : leastAbove a bs = none ↔ ∀ c ∈ bs, ¬a < c := by
  induction bs with
  | nil => simp [leastAbove]
  | cons b bs ih =>
    rw [List.forall_mem_cons, ← ih, leastAbove]
    by_cases h : a < b
    · cases leastAbove a bs <;> simp [h]
    · simp [h]

theorem leastAbove_of_eq_some (h : leastAbove a bs = some b) : LeastAbove a bs b := by
  induction bs generalizing b with
  | nil => cases h
  | cons q bs ih =>
    rw [leastAbove] at h
    by_cases hq : a < q
    · rw [if_pos hq] at h
      cases hbs : leastAbove a bs with
      | none =>
        rw [hbs] at h
        cases h
        have habove := leastAbove_eq_none_iff.1 hbs
        exact ⟨.head _, hq, by simpa using fun c hc hac => absurd hac (habove c hc)⟩
      | some c =>
        rw [hbs] at h
        cases h
        obtain ⟨hc, hac, hle⟩ := ih hbs
        by_cases hqc : q < c
        · rw [if_pos hqc]
          refine ⟨.head _, hq, List.forall_mem_cons.2 ⟨fun _ => BitVec.le_refl q, fun d hd had => ?_⟩⟩
          exact BitVec.le_trans (BitVec.le_of_lt hqc) (hle d hd had)
        · rw [if_neg hqc]
          exact ⟨.tail _ hc, hac, List.forall_mem_cons.2 ⟨fun _ => BitVec.not_lt.1 hqc, hle⟩⟩
    · rw [if_neg hq] at h
      obtain ⟨hb, hab, hle⟩ := ih h
      exact ⟨.tail _ hb, hab, List.forall_mem_cons.2 ⟨fun hc => absurd hc hq, hle⟩⟩

theorem leastAbove_eq_some_iff : leastAbove a bs = some b ↔ LeastAbove a bs b := by
  refine ⟨leastAbove_of_eq_some, fun h => ?_⟩
  cases hl : leastAbove a bs with
  | none => exact absurd h.2.1 (leastAbove_eq_none_iff.1 hl b h.1)
  | some c => rw [(leastAbove_of_eq_some hl).unique h]

/-- Settles O4: the list of defined addresses is searched for the least one above the argument. -/
theorem rfNextIsTheLeastDefinedAddressAbove : Obligations.RfNextIsTheLeastDefinedAddressAbove := fun _ _ =>
  ⟨fun _ => leastAbove_eq_some_iff, leastAbove_eq_none_iff⟩

/-! ## Bytes of a register value -/

theorem laneOf_getLsbD (v : RegValue) (l : Nat) {j : Nat} (h : j < 8) :
    (laneOf v l).getLsbD j = v.getLsbD (8 * l + j) := by
  simp only [laneOf, BitVec.getLsbD_setWidth, BitVec.getLsbD_ushiftRight, h, decide_true, Bool.true_and]

/-- The bits of one lane are replaced, the others kept. -/
theorem withLane_getLsbD (v : RegValue) (l : Nat) (b : Byte) {j : Nat} (h : j < 24) :
    (withLane v l b).getLsbD j =
      if 8 * l ≤ j ∧ j < 8 * l + 8 then b.getLsbD (j - 8 * l) else v.getLsbD j := by
  have hff : ∀ m, (0x0000FF#24).getLsbD m = decide (m < 8) := by
    intro m
    by_cases hm : m < 24
    · exact (by decide : ∀ m < 24, (0x0000FF#24).getLsbD m = decide (m < 8)) m hm
    · rw [BitVec.getLsbD_of_ge _ _ (by omega), decide_eq_false (by omega)]
  simp only [withLane, BitVec.getLsbD_or, BitVec.getLsbD_and, BitVec.getLsbD_not, BitVec.getLsbD_shiftLeft,
    BitVec.getLsbD_setWidth, hff, h, decide_true, Bool.true_and]
  by_cases h1 : j < 8 * l
  · simp [h1, Nat.not_le_of_lt h1]
  · by_cases h2 : j < 8 * l + 8
    · have h3 : j - 8 * l < 8 := by omega
      have h4 : j - 8 * l < 24 := by omega
      simp [h1, Nat.le_of_not_lt h1, h2, h3, h4]
    · have h3 : 8 ≤ j - 8 * l := by omega
      simp [h1, h2, h3, Nat.not_lt_of_le h3]

/-- Reading a lane after one lane was replaced. -/
theorem laneOf_withLane (v : RegValue) (b : Byte) {l m : Nat} (hm : m < 3) :
    laneOf (withLane v l b) m = if m = l then b else laneOf v m := by
  apply BitVec.eq_of_getLsbD_eq
  intro j hj
  rw [laneOf_getLsbD _ _ hj, withLane_getLsbD _ _ _ (by omega)]
  by_cases h : m = l
  · subst h
    simp [hj]
  · rw [if_neg (by omega), if_neg h, laneOf_getLsbD _ _ hj]

theorem toNat_lt_two_pow_iff {v : RegValue} {n : Nat} :
    v.toNat < 2 ^ n ↔ ∀ j, n ≤ j → v.getLsbD j = false := by
  refine ⟨fun h j hj => ?_, fun h => Nat.lt_pow_two_of_testBit _ h⟩
  exact Nat.testBit_lt_two_pow (Nat.lt_of_lt_of_le h (Nat.pow_le_pow_right (by decide) hj))

/-- A lane inside the width keeps the value inside the width. -/
theorem withLane_lt {v : RegValue} {w l : Nat} (b : Byte) (hl : l < w) (hv : v.toNat < 2 ^ (8 * w)) :
    (withLane v l b).toNat < 2 ^ (8 * w) := by
  rw [toNat_lt_two_pow_iff] at hv ⊢
  intro j hj
  by_cases h : j < 24
  · rw [withLane_getLsbD _ _ _ h, if_neg (by omega), hv j hj]
  · exact BitVec.getLsbD_of_ge _ _ (by omega)

theorem busLane_lt {w k : Nat} (order : ByteOrder) (hk : k < w) : busLane w order k < w := by
  cases order <;> simp only [busLane] <;> omega

theorem busLane_inj {w j k : Nat} (order : ByteOrder) (hj : j < w) (hk : k < w) :
    busLane w order j = busLane w order k ↔ j = k := by
  cases order with
  | le => rfl
  | be => simp only [busLane]; omega

theorem byteOf_withByte (v : RegValue) {w j k : Nat} (order : ByteOrder) (b : Byte) (hw : w ≤ 3) (hj : j < w)
    (hk : k < w) :
    byteOf (withByte v w order k b) w order j = if j = k then b else byteOf v w order j := by
  rw [byteOf, withByte, laneOf_withLane _ _ (Nat.lt_of_lt_of_le (busLane_lt order hj) hw)]
  simp only [busLane_inj order hj hk, byteOf]

theorem withByte_lt {v : RegValue} {w k : Nat} (order : ByteOrder) (b : Byte) (hk : k < w)
    (hv : v.toNat < 2 ^ (8 * w)) : (withByte v w order k b).toNat < 2 ^ (8 * w) :=
  withLane_lt b (busLane_lt order hk) hv

/-- Settles O5: the three facts about one bus byte replaced. -/
theorem withByteReplacesExactlyOneBusByte : Obligations.WithByteReplacesExactlyOneBusByte := by
  intro v w order k b hw hk
  refine ⟨?_, fun j hj hne => ?_, withByte_lt order b hk⟩
  · rw [byteOf_withByte v order b hw hk hk, if_pos rfl]
  · rw [byteOf_withByte v order b hw hj hk, if_neg hne]

theorem laneOf_toNat (v : RegValue) (l : Nat) : (laneOf v l).toNat = v.toNat / 2 ^ (8 * l) % 256 := by
  simp only [laneOf, BitVec.toNat_setWidth, BitVec.toNat_ushiftRight, Nat.shiftRight_eq_div_pow]

/-- The lanes below `w` are the value's remainder at `2 ^ (8 * w)`. -/
theorem sum_lanes (v : RegValue) (w : Nat) :
    ((List.range w).map (fun k => (laneOf v k).toNat * 2 ^ (8 * k))).sum = v.toNat % 2 ^ (8 * w) := by
  induction w with
  | zero => simp [Nat.mod_one]
  | succ w ih =>
    rw [List.range_succ, List.map_append, List.sum_append, ih, List.map_singleton, List.sum_singleton, laneOf_toNat,
      Nat.mul_add, Nat.pow_add, Nat.mod_mul, Nat.mul_comm (2 ^ (8 * w))]

/-- Settles O6: bus byte `k` is lane `k`, and a value inside its width is its own remainder. -/
theorem littleEndianBytesMakeUpTheValue : Obligations.LittleEndianBytesMakeUpTheValue := fun v w _ hv =>
  (sum_lanes v w).trans (Nat.mod_eq_of_lt hv)

/-! ## spi_read -/

theorem spiRead_toNat {a : SpiAddr} (h : rf.lookup (spiRegAddr a) = some r) :
    (spiRead rf a).toNat = r.value.toNat % 256 := by
  rw [spiRead_of_lookup h, BitVec.toNat_setWidth]

/-- Settles O41: lane 0, which is all of a value of one byte. -/
theorem spiReadIsTheLowestByte : Obligations.SpiReadIsTheLowestByte := by
  intro rf a r hwf hl
  refine ⟨spiRead_toNat hl, fun h1 => ?_⟩
  have hv : r.value.toNat < 2 ^ (8 * r.desc.width) := ((RegFile.wf_iff.1 hwf).2 r (RegFile.mem_of_lookup hl)).2
  rw [h1] at hv
  exact (spiRead_toNat hl).trans (Nat.mod_eq_of_lt hv)

end Sys2Proof.Machine
end

section
/-! PROOFS. Register contents never steer the engine (20_memory.md R61): two states with the same map, engine and
configuration run every instruction alike. -/

namespace Sys2Proof

open Sys2Proof.Machine

variable {s t : State} {rf rf' : RegFile} {r r' : Response}

/-! ## The same update of both states -/

theorem SameButValues.setEngine (h : SameButValues s t) (g : Engine) :
    SameButValues (s.setEngine g) (t.setEngine g) :=
  ⟨h.params_eq, h.map_eq, rfl, h.events_eq, h.draws_eq⟩

theorem SameButValues.setRegs (h : SameButValues s t) (hm : rf.regMap = rf'.regMap) :
    SameButValues (s.setRegs rf) (t.setRegs rf') :=
  ⟨h.params_eq, hm, h.engine_eq, h.events_eq, h.draws_eq⟩

theorem SameButValues.setEvents (h : SameButValues s t) (ws : List EventWord) :
    SameButValues (s.setEvents ws) (t.setEvents ws) :=
  ⟨h.params_eq, h.map_eq, h.engine_eq, rfl, h.draws_eq⟩

theorem SameButValues.setDraws (h : SameButValues s t) (n : Nat) : SameButValues (s.setDraws n) (t.setDraws n) :=
  ⟨h.params_eq, h.map_eq, h.engine_eq, h.events_eq, rfl⟩

theorem SameButValues.answer (h : SameButValues s t) (r r' : Response) : SameButValues (s.answer r) (t.answer r') :=
  ⟨h.params_eq, h.map_eq, h.engine_eq, h.events_eq, h.draws_eq⟩

theorem SameButValues.context_eq (h : SameButValues s t) : s.context = t.context :=
  congrArg Engine.context h.engine_eq

/-- Both states find a register at the same addresses, with the same attributes. -/
theorem SameButValues.lookup_cases (h : SameButValues s t) (a : RegAddr) :
    (s.regs.lookup a = none ∧ t.regs.lookup a = none) ∨
      ∃ q q', s.regs.lookup a = some q ∧ t.regs.lookup a = some q' ∧ q.desc = q'.desc := by
  have hd : (s.regs.lookup a).map Register.desc = (t.regs.lookup a).map Register.desc := by
    rw [RegFile.lookup_desc, RegFile.lookup_desc, h.map_eq]
  cases hs : s.regs.lookup a with
  | none =>
    rw [hs] at hd
    exact .inl ⟨rfl, Option.map_eq_none_iff.1 hd.symm⟩
  | some q =>
    rw [hs] at hd
    obtain ⟨q', ht, hq⟩ := Option.map_eq_some_iff.1 hd.symm
    exact .inr ⟨q, q', rfl, ht, hq.symm⟩

/-- The pointer's way through the map does not depend on register values. -/
theorem consumeByte_congr (hm : rf.regMap = rf'.regMap) (w : Nat) (e : I2cState) :
    consumeByte rf w e = consumeByte rf' w e := by
  simp only [consumeByte, advance, RegFile.next_congr hm]

/-! ## Alike outcomes -/

/-- Responses that differ at most in their byte. -/
def SameShape (r r' : Response) : Prop := r.ack = r'.ack ∧ r.err = r'.err ∧ r.dout.isSome = r'.dout.isSome

theorem SameShape.rfl : SameShape r r := ⟨Eq.refl _, Eq.refl _, Eq.refl _⟩

theorem SameShape.data (d d' : Byte) : SameShape (Response.data d) (Response.data d') :=
  ⟨Eq.refl _, Eq.refl _, Eq.refl _⟩

/-- Two outcomes that differ only in register values and the byte answered. -/
inductive Alike : Result → Result → Prop where
  | next {u v : State} (h : SameButValues u v) (hr : SameShape u.resp v.resp) : Alike (.next u) (.next v)
  | refused (why : Refusal) : Alike (.refused why) (.refused why)

theorem Alike.answered (h : SameButValues s t) (hr : SameShape r r') :
    Alike (.next (s.answer r)) (.next (t.answer r')) := .next (h.answer r r') hr

theorem Alike.onI2c {f g : I2cState → Result} (h : SameButValues s t) (hf : ∀ e, Alike (f e) (g e)) :
    Alike (onI2c s f) (onI2c t g) := by
  cases he : s.engine with
  | i2c e => rw [onI2c_eq he, onI2c_eq (h.engine_eq ▸ he)]; exact hf e
  | spi e =>
    have ht : t.engine = .spi e := h.engine_eq ▸ he
    simp only [Machine.onI2c, he, ht]
    exact .refused _

theorem Alike.onSpi {f g : SpiState → Result} (h : SameButValues s t) (hf : ∀ e, Alike (f e) (g e)) :
    Alike (onSpi s f) (onSpi t g) := by
  cases he : s.engine with
  | spi e => rw [onSpi_eq he, onSpi_eq (h.engine_eq ▸ he)]; exact hf e
  | i2c e =>
    have ht : t.engine = .i2c e := h.engine_eq ▸ he
    simp only [Machine.onSpi, he, ht]
    exact .refused _

theorem Alike.raiseMalformed (h : SameButValues s t) (ev : Event) :
    Alike (.next (raiseMalformed ev s)) (.next (raiseMalformed ev t)) := by
  simp only [Machine.raiseMalformed, ← h.params_eq, ← h.engine_eq]
  exact .answered (h.setEngine _) .rfl

/-! ## The instructions that look at the Register File -/

theorem execI2cWbyteData_alike (h : SameButValues s t) (b : Byte) :
    Alike (execI2cWbyteData b s) (execI2cWbyteData b t) := by
  refine .onI2c h fun e => ?_
  cases e.ptrEnd with
  | true => exact .answered h .rfl
  | false =>
    obtain ⟨hs, ht⟩ | ⟨q, q', hs, ht, hd⟩ := h.lookup_cases e.ptr
    · simp only [hs, ht, consumeByte_congr h.map_eq]
      exact .answered (h.setEngine _) .rfl
    · simp only [hs, ht, hd, consumeByte_congr h.map_eq]
      exact .answered ((h.setRegs (by simp [h.map_eq])).setEngine _) .rfl

theorem execI2cRbyte_alike (h : SameButValues s t) : Alike (execI2cRbyte s) (execI2cRbyte t) := by
  refine .onI2c h fun e => ?_
  cases e.ptrEnd with
  | true => exact .answered h (.data _ _)
  | false =>
    obtain ⟨hs, ht⟩ | ⟨q, q', hs, ht, hd⟩ := h.lookup_cases e.ptr
    · simp only [hs, ht, consumeByte_congr h.map_eq]
      exact .answered (h.setEngine _) (.data _ _)
    · simp only [hs, ht, hd, consumeByte_congr h.map_eq]
      exact .answered (h.setEngine _) (.data _ _)

theorem execSpiDataMreadCont_alike (h : SameButValues s t) :
    Alike (execSpiDataMreadCont s) (execSpiDataMreadCont t) := by
  refine .onSpi h fun e => ?_
  rw [h.params_eq, h.draws_eq]
  cases inc6 t.params t.draws e.address with
  | none => exact .refused _
  | some p => exact .answered ((h.setEngine _).setDraws _) (.data _ _)

theorem execReset_alike (h : SameButValues s t) : Alike (execReset s) (execReset t) := by
  have hm : s.regs.reset.regMap = t.regs.reset.regMap := by simp [h.map_eq]
  simp only [execReset, State.afterReset, ← h.params_eq, ← h.engine_eq]
  exact .answered ((h.setRegs hm).setEngine _) .rfl

theorem Alike.command (h : SameButValues s t) (mode : Mode) (a : SpiAddr) :
    Alike (Machine.onSpi s fun e => .next (enterCommand s e mode a))
      (Machine.onSpi t fun e => .next (enterCommand t e mode a)) :=
  .onSpi h fun _ => .answered (h.setEngine _) .rfl

/-- Two states that differ only in register values run an instruction alike. -/
theorem exec_alike (i : Instr) (h : SameButValues s t) : Alike (exec i s) (exec i t) := by
  cases i with
  | i2cStartSend | i2cStartRecv | i2cWbytePtr | i2cStop => exact .onI2c h fun e => .answered (h.setEngine _) .rfl
  | i2cWbyteData b => exact execI2cWbyteData_alike h b
  | i2cRbyte => exact execI2cRbyte_alike h
  | i2cWbyteBad | i2cRbyteBad => exact .onI2c h fun e => .raiseMalformed h _
  | spiXferBad => exact .onSpi h fun e => .raiseMalformed h _
  | reset => exact execReset_alike h
  | spiSelect | spiDeselect | spiCmdNop01 => exact .onSpi h fun e => .answered (h.setEngine _) .rfl
  | spiCmdWrite a => exact .command h .write a
  | spiCmdRead a => exact .command h .read a
  | spiCmdMread a => exact .command h .multiRead a
  | spiDataRead => exact .onSpi h fun e => .answered (h.setEngine _) (.data _ _)
  | spiDataMreadCont => exact execSpiDataMreadCont_alike h
  | spiDataMreadExit b =>
    rw [exec_exit_eq_command, exec_exit_eq_command]
    obtain ⟨-, hd⟩ | ⟨-, hd⟩ | ⟨-, hd⟩ | ⟨-, hd⟩ := decodeCommand_cases b <;> rw [hd]
    · exact .command h .write _
    · exact .onSpi h fun e => .answered (h.setEngine _) .rfl
    · exact .command h .read _
    · exact .command h .multiRead _
  | spiDataWrite => exact .onSpi h fun e => .answered ((h.setRegs (by simp [h.map_eq])).setEngine _) .rfl

/-- A step that delivers a word does so alike in both states: the decoder does not look at the Register File. -/
theorem step_alike (h : SameButValues s t) (hev : s.events ≠ []) : Alike (step s) (step t) := by
  obtain ⟨w, rest, hs⟩ := List.exists_cons_of_ne_nil hev
  have ht : t.events = w :: rest := h.events_eq ▸ hs
  cases hd : decode s.context w with
  | ok i =>
    rw [step_of_decode hs hd, step_of_decode ht (h.context_eq ▸ hd)]
    exact exec_alike i (h.setEvents rest)
  | error why =>
    rw [step_of_meaningless hs hd, step_of_meaningless ht (h.context_eq ▸ hd)]
    exact .refused _

/-- Settles O21: without a word both states rest; with one they step alike. -/
theorem registerContentsNeverSteerTheEngine : Obligations.RegisterContentsNeverSteerTheEngine := by
  intro s t h
  by_cases hev : s.events = []
  · rw [step_of_no_event hev, step_of_no_event (h.events_eq ▸ hev)]
    exact ⟨h, fun hne => absurd hev hne⟩
  · have halike := step_alike h hev
    generalize step s = x at halike ⊢
    generalize step t = y at halike ⊢
    cases halike with
    | next hsame hshape => exact ⟨hsame, fun _ => hshape⟩
    | refused why => rfl

end Sys2Proof
end

section
/-! PROOFS. When a step stops (30_encoding.md R82, 42_spi_engine.md R194, 60_exceptions.md R227), and the step of a
placed table word (log entry 4). -/

namespace Sys2Proof.Machine

variable {s t : State} {w : EventWord} {rest : List EventWord} {i : Instr}

/-- Settles O12: the two cases of the step. -/
theorem stepRunsTheDecodedInstruction : Obligations.StepRunsTheDecodedInstruction := fun _ =>
  ⟨fun _ _ _ hev hd => step_of_decode hev hd, step_of_no_event⟩

/-! ## Where a step stops -/

/-- The words the decoder refuses, by bus (30_encoding.md R82). -/
theorem decode_error_iff (g : Engine) (w : EventWord) :
    (∃ why, decode g.context w = .error why) ↔
      evField w = 6#3 ∨ evField w = 7#3 ∨ (g.bus = .spi ∧ (evField w = 1#3 ∨ evField w = 3#3)) := by
  unfold decode
  cases hw : Event.ofWord w with
  | none =>
    have h67 := ofWord_eq_none_iff.1 hw
    refine iff_of_true ⟨_, rfl⟩ ?_
    rcases h67 with h | h <;> simp [h]
  | some ev =>
    have hk : evField w = ev.kind := (ofWord_eq_some_iff.1 hw).1
    cases g with
    | i2c e => cases ev <;> simp [hk, Event.kind, selectInstr]
    | spi e => cases ev <;> simp [hk, Event.kind, selectInstr]

/-- A command completes. -/
theorem exec_command_completes {e : SpiState} (he : s.engine = .spi e) (b : Byte) :
    ∃ t, exec (decodeCommand b) s = .next t := by
  obtain ⟨-, h⟩ | ⟨-, h⟩ | ⟨-, h⟩ | ⟨-, h⟩ := decodeCommand_cases b <;> exact h ▸ ⟨_, onSpi_eq he⟩

/-- The one stop of the SPI engine: a continuation at address 63 with `SPI_ADDR_WRAP = refuse` (42_spi_engine.md
R194). -/
def AtOpenWrap (s : State) (e : SpiState) : Prop :=
  s.params.spiAddrWrap = .refuse ∧ e.mode = .multiRead ∧ e.address = 63#6

theorem exec_spiDataMreadCont {e : SpiState} {p : SpiAddr × Nat} (he : s.engine = .spi e)
    (hinc : inc6 s.params s.draws e.address = some p) :
    exec .spiDataMreadCont s =
      .next (((s.setSpi { e with address := p.1 }).setDraws p.2).answer
        (Response.data (spiRead s.regs e.address))) := by
  rw [exec, execSpiDataMreadCont, onSpi_eq he, hinc]

theorem exec_spiDataMreadCont_refused {e : SpiState} (he : s.engine = .spi e)
    (hinc : inc6 s.params s.draws e.address = none) :
    exec .spiDataMreadCont s = .refused .addrWrap := by
  rw [exec, execSpiDataMreadCont, onSpi_eq he, hinc]

/-- A byte in the select window completes, or meets the open wrap. -/
theorem exec_spi_byte_outcome {e : SpiState} (he : s.engine = .spi e) (b : Byte) :
    (∃ t, exec (selectSpiByte true e.mode b) s = .next t) ∨
      (exec (selectSpiByte true e.mode b) s = .refused .addrWrap ∧ AtOpenWrap s e) := by
  cases hm : e.mode with
  | standby => exact .inl (exec_command_completes he b)
  | read | write => exact .inl ⟨_, onSpi_eq he⟩
  | multiRead =>
    by_cases hb : b = spiCont
    · subst hb
      simp only [selectSpiByte, if_true]
      obtain ⟨-, h⟩ | ⟨ha, hp, h⟩ | ⟨-, -, h⟩ | ⟨-, -, h⟩ := inc6_cases s.params s.draws e.address
      · exact .inl ⟨_, exec_spiDataMreadCont he h⟩
      · exact .inr ⟨exec_spiDataMreadCont_refused he h, hp, hm, ha⟩
      · exact .inl ⟨_, exec_spiDataMreadCont he h⟩
      · exact .inl ⟨_, exec_spiDataMreadCont he h⟩
    · simp only [selectSpiByte, if_true, if_neg hb, exec_exit_eq_command]
      exact .inl (exec_command_completes he b)

/-- What the decoder gives on the SPI engine completes, or meets the open wrap. -/
theorem exec_spi_outcome {e : SpiState} {ev : Event} (he : s.engine = .spi e)
    (hi : selectInstr (.spi e.sel e.mode) ev = .ok i) :
    (∃ t, exec i s = .next t) ∨ (exec i s = .refused .addrWrap ∧ AtOpenWrap s e) := by
  cases ev with
  | start | stop => cases hi; exact .inl ⟨_, onSpi_eq he⟩
  | reset => cases hi; exact .inl ⟨_, rfl⟩
  | startRecv | byteOutReq => cases hi
  | byteIn b =>
    cases hi
    cases e.sel with
    | false => exact .inl ⟨_, onSpi_eq he⟩
    | true => exact exec_spi_byte_outcome he b

/-- A word that the decoder takes is stepped, but at the open wrap. -/
theorem step_outcome (hev : s.events = w :: rest) (hd : decode s.context w = .ok i) :
    (∃ t, step s = .next t) ∨ (step s = .refused .addrWrap ∧ ∃ e, s.engine = .spi e ∧ AtOpenWrap s e) := by
  rw [step_of_decode hev hd]
  obtain ⟨ev, -, hi⟩ := decode_eq_ok_iff.1 hd
  cases he : s.engine with
  | i2c e =>
    rw [State.context, he] at hi
    obtain ⟨i', hi', t, hx⟩ := exec_i2c_completes (s := s.setEvents rest) he ev
    cases hi.symm.trans hi'
    exact .inl ⟨t, hx⟩
  | spi e =>
    rw [State.context, he] at hi
    exact (exec_spi_outcome (s := s.setEvents rest) he hi).imp_right fun ⟨hx, hw⟩ => ⟨hx, e, rfl, hw⟩

/-- Settles O13: the decoder's refusals, and the open wrap as the only other stop. -/
theorem stepStopsOnlyOnMeaninglessWordsOrTheOpenWrap : Obligations.StepStopsOnlyOnMeaninglessWordsOrTheOpenWrap := by
  intro s w rest hev
  rw [← decode_error_iff s.engine w]
  cases hd : decode s.engine.context w with
  | error why =>
    have hs : step s = .refused (.noMeaning why) := step_of_meaningless hev hd
    rw [hs]
    exact ⟨iff_of_true ⟨why, rfl⟩ ⟨why, rfl⟩, fun r hr => .inl ⟨why, by cases hr; rfl⟩, nofun⟩
  | ok i =>
    obtain ⟨t, hs⟩ | ⟨hs, e, he, hwrap, hm, ha⟩ := step_outcome hev hd <;> rw [hs]
    · exact ⟨iff_of_false nofun nofun, nofun, nofun⟩
    · exact ⟨iff_of_false nofun nofun, fun r hr => .inr ⟨by cases hr; rfl, hwrap, e, he, hm, ha⟩, nofun⟩

/-! ## A placed table word -/

theorem decoded?_eq_some_iff {ctx : Context} : decoded? ctx w = some i ↔ decode ctx w = .ok i := by
  unfold decoded?
  cases decode ctx w <;> simp

theorem decoded?_eq_none_iff {ctx : Context} : decoded? ctx w = none ↔ ∃ why, decode ctx w = .error why := by
  unfold decoded?
  cases decode ctx w <;> simp

theorem decodeTableWord_eq (nbits w : Nat) :
    decodeTableWord nbits w = decoded? (tableContext (tableWord nbits w)) (tableWord nbits w) := by
  unfold decodeTableWord decoded?
  cases decode (tableContext (tableWord nbits w)) (tableWord nbits w) <;> rfl

theorem Engine.inContext_context (p : Params) (g : Engine) (ctx : Context) : (g.inContext p ctx).context = ctx := by
  cases ctx <;> cases g <;> rfl

/-- The state in which a placed word is met: as it is, or with the engine put into the word's context. -/
def State.placedIn (s : State) (w : EventWord) : State :=
  if decoded? s.context w = decoded? (tableContext w) w then s
  else s.setEngine (s.engine.inContext s.params (tableContext w))

theorem State.placeWord_eq (s : State) (w : EventWord) :
    s.placeWord w = (s.placedIn w).setEvents (w :: (s.placedIn w).events) := by
  unfold State.placeWord State.placedIn
  split <;> rfl

/-- There the word is what it is in its own context. -/
theorem State.decoded?_placedIn (s : State) (w : EventWord) :
    decoded? (s.placedIn w).context w = decoded? (tableContext w) w := by
  unfold State.placedIn
  split
  · assumption
  · rw [State.setEngine_context, Engine.inContext_context]

/-- Taking the placed word off the stream again leaves the state it was placed in. -/
theorem step_placeWord_of_some (h : decoded? (tableContext w) w = some i) :
    step (s.placeWord w) = exec i (s.placedIn w) := by
  rw [State.placeWord_eq]
  exact step_of_decode rfl (decoded?_eq_some_iff.1 ((s.decoded?_placedIn w).trans h))

theorem step_placeWord_of_none (h : decoded? (tableContext w) w = none) :
    ∃ why, step (s.placeWord w) = .refused (.noMeaning why) := by
  obtain ⟨why, hd⟩ := decoded?_eq_none_iff.1 ((s.decoded?_placedIn w).trans h)
  rw [State.placeWord_eq]
  exact ⟨why, step_of_meaningless rfl hd⟩

/-- Settles O14: the state the word is placed in, by whether the present context reads the same instruction. -/
theorem placedTableWordRunsItsInstruction : Obligations.PlacedTableWordRunsItsInstruction := by
  intro s nbits w
  rw [decodeTableWord_eq]
  refine ⟨fun i hi => ⟨fun hd => ?same, fun hd => ?other⟩, step_placeWord_of_none⟩
  all_goals rw [State.withFetchWord, step_placeWord_of_some hi, State.placedIn, hi]
  case same => rw [if_pos (decoded?_eq_some_iff.2 hd)]
  case other =>
    rw [if_neg (mt decoded?_eq_some_iff.1 hd)]
    rfl

end Sys2Proof.Machine
end

section
/-! PROOFS. The I2C engine's instructions (41_i2c_engine.md R141 to R149, R153) and its tables of phases and of
malformed events (R140, 60_exceptions.md R222, R223). -/

namespace Sys2Proof.Machine

variable {s t : State} {e : I2cState} {rf : RegFile} {a : RegAddr} {r : Register} {b : Byte} {ev : Event}
  {rest : List EventWord}

/-! ## The instructions without a register access -/

/-- Settles O24: three updates of the engine. -/
theorem i2cStartsAndStopKeepPointerAndRegisters : Obligations.I2cStartsAndStopKeepPointerAndRegisters := fun _ _ he =>
  ⟨onI2c_eq he, onI2c_eq he, onI2c_eq he⟩

/-- Settles O25: one update of the engine. -/
theorem i2cPointerByteLoadsThePointer : Obligations.I2cPointerByteLoadsThePointer := fun _ _ _ he => onI2c_eq he

/-- Settles O30: MalformedSequence raised on the I2C engine. -/
theorem i2cMalformedEventsForceIdle : Obligations.I2cMalformedEventsForceIdle := fun _ _ b he =>
  ⟨(onI2c_eq he).trans (congrArg _ (raiseMalformed_i2c he (.byteIn b))),
    (onI2c_eq he).trans (congrArg _ (raiseMalformed_i2c he .byteOutReq))⟩

/-! ## Data bytes and read requests, by what stands at the pointer -/

theorem exec_i2cWbyteData_atEnd (he : s.engine = .i2c e) (hend : e.ptrEnd = true) (b : Byte) :
    exec (.i2cWbyteData b) s = .next (s.answer Response.accepted) := by
  rw [exec, execI2cWbyteData, onI2c_eq he, if_pos hend]

theorem exec_i2cWbyteData_undefined (he : s.engine = .i2c e) (hend : e.ptrEnd = false)
    (hl : s.regs.lookup e.ptr = none) (b : Byte) :
    exec (.i2cWbyteData b) s = .next ((s.setI2c (consumeByte s.regs 1 e)).answer Response.accepted) := by
  simp [exec, execI2cWbyteData, onI2c_eq he, hend, hl]

theorem exec_i2cWbyteData_defined (he : s.engine = .i2c e) (hend : e.ptrEnd = false)
    (hl : s.regs.lookup e.ptr = some r) (b : Byte) :
    exec (.i2cWbyteData b) s =
      .next
        (((s.setRegs
            (s.regs.write e.ptr (withByte r.value r.desc.width r.desc.order e.cursor.toNat b).toNat)).setI2c
            (consumeByte s.regs r.desc.width e)).answer Response.accepted) := by
  simp [exec, execI2cWbyteData, onI2c_eq he, hend, hl]

theorem exec_i2cRbyte_atEnd (he : s.engine = .i2c e) (hend : e.ptrEnd = true) :
    exec .i2cRbyte s = .next (s.answer (Response.data s.params.i2cFiller)) := by
  rw [exec, execI2cRbyte, onI2c_eq he, if_pos hend]

theorem exec_i2cRbyte_undefined (he : s.engine = .i2c e) (hend : e.ptrEnd = false)
    (hl : s.regs.lookup e.ptr = none) :
    exec .i2cRbyte s =
      .next ((s.setI2c (consumeByte s.regs 1 e)).answer (Response.data s.params.i2cFiller)) := by
  simp [exec, execI2cRbyte, onI2c_eq he, hend, hl]

theorem exec_i2cRbyte_defined (he : s.engine = .i2c e) (hend : e.ptrEnd = false)
    (hl : s.regs.lookup e.ptr = some r) :
    exec .i2cRbyte s =
      .next
        ((s.setI2c (consumeByte s.regs r.desc.width e)).answer
          (Response.data (byteOf r.value r.desc.width r.desc.order e.cursor.toNat))) := by
  simp [exec, execI2cRbyte, onI2c_eq he, hend, hl]

/-- One byte of a register of one to three bytes is what R144 to R146 say of it. -/
theorem consumeByte_afterByte {w : Nat} (hc : e.cursor.toNat < w) (hw : w ≤ 3) :
    AfterByte rf w e (consumeByte rf w e) := by
  obtain ⟨hlt, h⟩ | ⟨heq, h⟩ := consumeByte_cases (rf := rf) hc hw <;> rw [h]
  · exact ⟨fun _ => rfl, fun _ heq _ => by omega, fun heq _ => by omega⟩
  · refine ⟨fun hlt => by omega, fun a _ hn => ?_, fun _ hn => ?_⟩
    · simp [advance, hn]
    · simp [advance, hn, ptrEndAfter]

theorem consumeByte_afterByte_undefined (hc : e.cursor = 0#2) : AfterByte rf 1 e (consumeByte rf 1 e) :=
  consumeByte_afterByte (by simp [hc]) (by decide)

/-- Settles O27: the two places without a register. -/
theorem i2cDataByteWithoutRegisterIsDiscarded : Obligations.I2cDataByteWithoutRegisterIsDiscarded := fun _ _ b he =>
  ⟨fun hend => exec_i2cWbyteData_atEnd he hend b, fun hend hl hc =>
    ⟨_, consumeByte_afterByte_undefined hc, exec_i2cWbyteData_undefined he hend hl b⟩⟩

/-- Settles O28: the byte is read, and the cursor moves on as R146 says. -/
theorem i2cReadRequestAnswersTheCursorByte : Obligations.I2cReadRequestAnswersTheCursorByte :=
  fun _ _ _ he hend hl hc hw => ⟨_, consumeByte_afterByte hc hw, exec_i2cRbyte_defined he hend hl⟩

/-- Settles O29: the two places without a register. -/
theorem i2cReadRequestWithoutRegisterAnswersFiller : Obligations.I2cReadRequestWithoutRegisterAnswersFiller :=
  fun _ _ he =>
    ⟨fun hend => exec_i2cRbyte_atEnd he hend, fun hend hl hc =>
      ⟨_, consumeByte_afterByte_undefined hc, exec_i2cRbyte_undefined he hend hl⟩⟩

/-! ## A data byte at a register -/

theorem truncTo_of_lt {w : Nat} {v : RegValue} (h : v.toNat < 2 ^ (8 * w)) : truncTo w v.toNat = v := by
  rw [truncTo, Nat.mod_eq_of_lt h, BitVec.ofNat_toNat, BitVec.setWidth_eq]

/-- The register after bus byte `k` was written: the byte is replaced in a read-write register, and only there. -/
structure ByteWritten (r : Register) (k : Nat) (b : Byte) (r' : Register) : Prop where
  desc_eq : r'.desc = r.desc
  kept_of_ro : r.desc.access = .ro → r'.value = r.value
  replaced_of_rw : r.desc.access = .rw → ∀ j < r.desc.width,
    byteOf r'.value r.desc.width r.desc.order j = if j = k then b else byteOf r.value r.desc.width r.desc.order j

theorem RegFile.lookup_write_byte {k : Nat} (hwf : rf.wf = true) (hl : rf.lookup a = some r) (hk : k < r.desc.width)
    (b : Byte) :
    ∃ r', (rf.write a (withByte r.value r.desc.width r.desc.order k b).toNat).lookup a = some r' ∧
      ByteWritten r k b r' := by
  have hr := RegFile.mem_of_lookup hl
  have hv : r.value.toNat < 2 ^ (8 * r.desc.width) := ((RegFile.wf_iff.1 hwf).2 r hr).2
  rw [RegFile.lookup_write, hl, Option.map_some, truncTo_of_lt (withByte_lt r.desc.order b hk hv)]
  refine ⟨_, rfl, ?_⟩
  cases hacc : r.desc.access with
  | ro =>
    rw [if_neg (by simp)]
    exact ⟨rfl, fun _ => rfl, by simp [hacc]⟩
  | rw =>
    rw [if_pos ⟨rfl, rfl⟩]
    refine ⟨rfl, by simp [hacc], fun _ j hj => ?_⟩
    exact byteOf_withByte r.value r.desc.order b (RegFile.width_bounds hwf hr).2 hj hk

/-- Settles O26: the register written, the other registers, and the cursor. -/
theorem i2cDataByteReplacesTheCursorByte : Obligations.I2cDataByteReplacesTheCursorByte := by
  intro s e r b he hend hwf hl hc
  obtain ⟨r', hl', hr'⟩ := RegFile.lookup_write_byte hwf hl hc b
  have hw := (RegFile.width_bounds hwf (RegFile.mem_of_lookup hl)).2
  exact ⟨_, _, r', exec_i2cWbyteData_defined he hend hl b, rfl, consumeByte_afterByte hc hw,
    fun a ha => RegFile.lookup_write_other _ ha, hl', hr'.desc_eq, hr'.kept_of_ro, hr'.replaced_of_rw⟩

/-! ## The table of phases -/

/-- Settles O31: the phase in every cell of R140's table; a transferred byte keeps it. -/
theorem i2cPhaseTransitionsAreTheTable : Obligations.I2cPhaseTransitionsAreTheTable := by
  intro s t e e' ev he hn h ht
  obtain ⟨rest, hs⟩ := i2cStep_of_step he hn h
  cases hs with
  | startSend | startRecv | stop | reset => obtain rfl := Engine.i2c.inj ht; rfl
  | pointer b hp => obtain rfl := Engine.i2c.inj ht; rw [hp]
  | dataAtEnd b hp | readAtEnd hp => obtain rfl := Engine.i2c.inj (he.symm.trans ht); rw [hp]
  | dataUndefined b hp | readUndefined hp | dataDefined b r hp | readDefined r hp =>
    obtain rfl := Engine.i2c.inj ht
    rw [hp]
    exact (consumeByte_frame _ _ e).1.trans hp
  | malformedByte b hp =>
    obtain rfl := Engine.i2c.inj ht
    rcases hp with hp | hp <;> rw [hp]
  | malformedRequest hp =>
    obtain rfl := Engine.i2c.inj ht
    rcases hp with hp | hp | hp <;> rw [hp]

/-! ## Exhaustion -/

/-- Settles O33: of the cells of R140's table only the pointer byte and RESET load the pointer, and the data cells do
nothing. -/
theorem exhaustionLastsUntilPointerLoadOrReset : Obligations.ExhaustionLastsUntilPointerLoadOrReset := by
  intro s t e he hend h hnr hna
  obtain ⟨hn, rfl⟩ | ⟨rest, ev, hn, hs⟩ := step_i2c_nextEvent he h
  · exact ⟨rfl, ⟨e, he, hend, rfl⟩, by simp [hn]⟩
  · cases hs with
    | pointer b hp => exact absurd hp (hna b hn)
    | reset => exact absurd hn hnr
    | dataUndefined b hp hno | readUndefined hp hno | dataDefined b r hp hno | readDefined r hp hno =>
      simp [hend] at hno
    | dataAtEnd => exact ⟨rfl, ⟨e, he, hend, rfl⟩, by simp [hn]⟩
    | readAtEnd => exact ⟨rfl, ⟨e, he, hend, rfl⟩, fun _ => rfl⟩
    | malformedRequest => exact ⟨rfl, ⟨_, rfl, hend, rfl⟩, fun _ => rfl⟩
    | startSend | startRecv | stop | malformedByte => exact ⟨rfl, ⟨_, rfl, hend, rfl⟩, by simp [hn]⟩

/-! ## Malformed events -/

theorem I2cStep.err_iff (h : I2cStep s e ev t) : t.resp.err = true ↔ MalformedPair (.i2c e) ev := by
  cases h with
  | malformedByte b hp => exact iff_of_true rfl hp
  | malformedRequest hp => exact iff_of_true rfl hp
  | pointer b hp | dataAtEnd b hp | dataUndefined b hp | dataDefined b r hp | readAtEnd hp | readUndefined hp
  | readDefined r hp => exact iff_of_false nofun (by simp [MalformedPair, hp])
  | startSend | startRecv | stop | reset => exact iff_of_false nofun nofun

theorem SpiStep.err_iff {e : SpiState} (h : SpiStep s e ev t) : t.resp.err = true ↔ MalformedPair (.spi e) ev := by
  cases h with
  | malformed b hs => exact iff_of_true rfl hs
  | command b mode hs | nop b hs | dataRead b hs | continuation a n hs | dataWrite b hs =>
    exact iff_of_false nofun (by simp [MalformedPair, hs])
  | select | deselect | reset => exact iff_of_false nofun nofun

theorem spiStep_of_step {e : SpiState} (he : s.engine = .spi e) (hn : nextEvent s = some ev) (h : step s = .next t) :
    ∃ rest, SpiStep (s.setEvents rest) e ev t := by
  obtain ⟨hno, -⟩ | ⟨rest, ev', hn', hs⟩ := step_spi_nextEvent he h
  · simp [hn] at hno
  · obtain rfl : ev = ev' := Option.some.inj (hn.symm.trans hn')
    exact ⟨rest, hs⟩

/-- Settles O35: `err` in every cell of the two tables. -/
theorem errIsReportedExactlyForMalformedPairs : Obligations.ErrIsReportedExactlyForMalformedPairs := by
  intro s t ev hn h
  cases he : s.engine with
  | i2c e =>
    obtain ⟨rest, hs⟩ := i2cStep_of_step he hn h
    exact hs.err_iff
  | spi e =>
    obtain ⟨rest, hs⟩ := spiStep_of_step he hn h
    exact hs.err_iff

/-- A malformed event is an instruction whose effect is to raise the condition. -/
theorem exec_of_malformedPair (h : MalformedPair s.engine ev) :
    ∃ i, selectInstr s.context ev = .ok i ∧ exec i s = .next (raiseMalformed ev s) := by
  cases he : s.engine with
  | i2c e =>
    rw [he] at h
    simp only [State.context, he, Engine.context_i2c]
    cases ev with
    | byteIn b => rcases h with hp | hp <;> exact hp ▸ ⟨.i2cWbyteBad b, rfl, onI2c_eq he⟩
    | byteOutReq => rcases h with hp | hp | hp <;> exact hp ▸ ⟨.i2cRbyteBad, rfl, onI2c_eq he⟩
    | start | startRecv | stop | reset => exact h.elim
  | spi e =>
    rw [he] at h
    simp only [State.context, he, Engine.context_spi]
    cases ev with
    | byteIn b =>
      have hs : e.sel = false := h
      exact hs ▸ ⟨.spiXferBad b, rfl, onSpi_eq he⟩
    | start | startRecv | byteOutReq | stop | reset => exact h.elim

/-- Settles O36: the step is the condition raised, which forces the engine's transient state. -/
theorem malformedEventChangesOnlyTransientState : Obligations.MalformedEventChangesOnlyTransientState := by
  intro s w rest ev hev hw hm
  obtain ⟨i, hi, hx⟩ := exec_of_malformedPair (s := s.setEvents rest) hm
  have hd : decode s.context w = .ok i := decode_eq_ok_iff.2 ⟨ev, hw, hi⟩
  refine ⟨_, (step_of_decode hev hd).trans hx, rfl, raiseMalformed_err ev, fun e he => ?_, fun e he => ?_⟩
  · rw [raiseMalformed_engine, State.setEvents_engine, he]
    rfl
  · rw [raiseMalformed_engine, State.setEvents_engine, he]
    rfl

end Sys2Proof.Machine
end

section
/-! PROOFS. The SPI engine's instructions (42_spi_engine.md R181 to R194), its table of modes (R180), its answers (R195)
and its address register (10_state.md R30). -/

namespace Sys2Proof.Machine

variable {s t : State} {e : SpiState} {rf : RegFile} {a : RegAddr} {r : Register} {b : Byte} {ev : Event}
  {w : EventWord} {rest : List EventWord}

/-! ## The window, operation 01 and an exchange outside the window -/

/-- Settles O37: two updates of the engine. -/
theorem spiSelectAndDeselectOpenAndCloseTheWindow : Obligations.SpiSelectAndDeselectOpenAndCloseTheWindow :=
  fun _ _ he => ⟨onSpi_eq he, onSpi_eq he⟩

/-- Settles O39: one update of the engine. -/
theorem spiCommand01IsANoOp : Obligations.SpiCommand01IsANoOp := fun _ _ a he => exec_spiCmdNop01 he a

/-- Settles O46: MalformedSequence raised on the SPI engine. -/
theorem spiExchangeOutsideTheWindowIsMalformed : Obligations.SpiExchangeOutsideTheWindowIsMalformed := fun _ _ b he =>
  (onSpi_eq he).trans (congrArg _ (raiseMalformed_spi he (.byteIn b)))

/-! ## The data exchange of a write -/

theorem RegFile.write_of_lookup_ro (hwf : rf.wf = true) (hl : rf.lookup a = some r) (hro : r.desc.access = .ro)
    (v : Nat) : rf.write a v = rf :=
  RegFile.addr_of_lookup hl ▸ RegFile.write_of_ro hwf (RegFile.mem_of_lookup hl) hro v

/-- A byte fits every width. -/
theorem truncTo_byte {n : Nat} (h : 1 ≤ n) (b : Byte) : truncTo n b.toNat = b.setWidth 24 := by
  have hpow : 2 ^ 8 ≤ 2 ^ (8 * n) := Nat.pow_le_pow_right (by decide) (by omega)
  rw [truncTo, Nat.mod_eq_of_lt (Nat.lt_of_lt_of_le b.isLt hpow), BitVec.ofNat_toNat]

theorem RegFile.lookup_write_zeroExtended (hwf : rf.wf = true) (hl : rf.lookup a = some r) (hrw : r.desc.access = .rw)
    (b : Byte) : (rf.write a b.toNat).lookup a = some { r with value := b.setWidth 24 } := by
  have hw := (RegFile.width_bounds hwf (RegFile.mem_of_lookup hl)).1
  simp [RegFile.lookup_write, hl, hrw, truncTo_byte hw]

theorem exec_spiDataWrite (he : s.engine = .spi e) (b : Byte) :
    exec (.spiDataWrite b) s =
      .next
        (((s.setRegs (s.regs.write (spiRegAddr e.address) b.toNat)).setSpi { e with mode := .standby }).answer
          (Response.data spiIdleOut)) := onSpi_eq he

/-- Settles O42: the write path at `address`, by what stands there. -/
theorem spiDataWriteStoresTheByte : Obligations.SpiDataWriteStoresTheByte := by
  intro s e b he hwf
  refine ⟨_, exec_spiDataWrite he b, rfl, fun a ha => RegFile.lookup_write_other _ ha, fun hl => ?undefined,
    fun r hl => ⟨fun hro => ?readOnly, fun hrw => ?readWrite⟩⟩
  case undefined => exact RegFile.write_of_undefined (RegFile.lookup_eq_none_iff.1 hl) _
  case readOnly => exact RegFile.write_of_lookup_ro hwf hl hro _
  case readWrite => exact RegFile.lookup_write_zeroExtended hwf hl hrw b

/-! ## The continuation of a multi-read -/

theorem inc6_below {p : Params} {n : Nat} {x : SpiAddr} (h : x.toNat < 63) : inc6 p n x = some (x + 1#6, n) :=
  if_pos h

theorem address_succ_toNat {x : SpiAddr} (h : x.toNat < 63) : (x + 1#6).toNat = x.toNat + 1 := by
  rw [BitVec.toNat_add]
  exact Nat.mod_eq_of_lt (show x.toNat + 1 < 64 by omega)

/-- Settles O43: `inc6` below the last address. -/
theorem spiContinuationReadsAndIncrements : Obligations.SpiContinuationReadsAndIncrements := fun _ _ he h =>
  ⟨_, address_succ_toNat h, exec_spiDataMreadCont he (inc6_below h)⟩

/-- Settles O44: `inc6` at the last address, for the three values of the open parameter. -/
theorem spiContinuationAtTheLastAddress : Obligations.SpiContinuationAtTheLastAddress := by
  intro s e he ha
  rw [← ha]
  refine ⟨fun hp => ?any, fun hp => ?wrap0, fun hp => ?refuse⟩
  case any =>
    exact exec_spiDataMreadCont (p := (Config.freeAddress s.draws, s.draws + 1)) he (by simp [inc6, ha, hp])
  case wrap0 => exact exec_spiDataMreadCont (p := (0#6, s.draws)) he (by simp [inc6, ha, hp])
  case refuse => exact exec_spiDataMreadCont_refused he (by simp [inc6, ha, hp])

/-! ## The exit byte -/

/-- `b >> 6` is the operation, zero-extended (30_encoding.md R90). -/
theorem shiftRight_six (b : Byte) : b >>> 6 = (cmdOp b).setWidth 8 := by
  apply BitVec.eq_of_toNat_eq
  have := (cmdOp b).isLt
  rw [← cmdOp_toNat, BitVec.toNat_setWidth]
  exact (Nat.mod_eq_of_lt (by omega)).symm

/-- Settles O45: the exit runs the byte's command, one clause for each operation. -/
theorem spiExitByteIsACommandInTheSameExchange : Obligations.SpiExitByteIsACommandInTheSameExchange := by
  intro s e b he
  refine ⟨exec_exit_eq_command b, ?_⟩
  rw [exec_exit_eq_command, shiftRight_six]
  obtain ⟨hop, hd⟩ | ⟨hop, hd⟩ | ⟨hop, hd⟩ | ⟨hop, hd⟩ := decodeCommand_cases b <;> rw [hop, hd]
  · exact ⟨_, exec_spiCmdWrite he _, rfl, fun _ => ⟨rfl, rfl⟩, by simp, by simp, by simp⟩
  · exact ⟨_, exec_spiCmdNop01 he _, rfl, by simp, fun _ => ⟨rfl, rfl⟩, by simp, by simp⟩
  · exact ⟨_, exec_spiCmdRead he _, rfl, by simp, by simp, fun _ => ⟨rfl, rfl⟩, by simp⟩
  · exact ⟨_, exec_spiCmdMread he _, rfl, by simp, by simp, by simp, fun _ => ⟨rfl, rfl⟩⟩

/-! ## The table of modes, the answers, the address -/

/-- The mode in which a byte is a command: standby, or multi-read with a byte that does not continue it
(42_spi_engine.md R182). -/
def TakesCommand (e : SpiState) (b : Byte) : Prop := e.mode = .standby ∨ (e.mode = .multiRead ∧ b ≠ spiCont)

theorem TakesCommand.not_data (h : TakesCommand e b) : ¬(e.mode = .read ∨ e.mode = .write) := by
  rcases h with h | ⟨h, -⟩ <;> simp [h]

theorem TakesCommand.not_continuation (h : TakesCommand e b) : ¬(e.mode = .multiRead ∧ b = 0x00#8) := by
  rcases h with h | ⟨-, hb⟩
  · simp [h]
  · exact fun hc => hb hc.2

/-- Settles O47: the mode in every cell of R180's table. -/
theorem spiModeTransitionsAreTheTable : Obligations.SpiModeTransitionsAreTheTable := by
  intro s t e e' ev he hn h ht
  obtain ⟨rest, hst⟩ := spiStep_of_step he hn h
  cases hst with
  | select | deselect | reset => obtain rfl := Engine.spi.inj ht; rfl
  | malformed b hs => obtain rfl := Engine.spi.inj ht; exact (if_pos (.inl hs)).symm
  | dataRead b hs hm => obtain rfl := Engine.spi.inj ht; exact (if_pos (.inr (.inl hm))).symm
  | dataWrite b hs hm => obtain rfl := Engine.spi.inj ht; exact (if_pos (.inr (.inr hm))).symm
  | continuation a n hs hm ha =>
    obtain rfl := Engine.spi.inj ht
    simp [hs, hm, spiCont]
  | nop b hs hm hop =>
    obtain rfl := Engine.spi.inj ht
    have hop' : cmdOp b = 1#2 := BitVec.eq_of_toNat_eq hop
    simp [hs, TakesCommand.not_data hm, TakesCommand.not_continuation hm, shiftRight_six, hop']
  | command b mode hs hm hop =>
    obtain rfl := Engine.spi.inj ht
    have hval : cmdOp b = BitVec.ofNat 2 (cmdOp b).toNat := by simp
    rcases hop with ⟨hop, rfl⟩ | ⟨hop, rfl⟩ | ⟨hop, rfl⟩ <;> rw [hop] at hval <;>
      simp [hs, TakesCommand.not_data hm, TakesCommand.not_continuation hm, shiftRight_six, hval]

/-- Settles O48: the answer in every cell of the select window. -/
theorem spiAnswersZeroButForReadData : Obligations.SpiAnswersZeroButForReadData := by
  intro s t e b he hs hn h
  obtain ⟨rest, hst⟩ := spiStep_of_step he hn h
  cases hst with
  | malformed _ hbad => simp [hs] at hbad
  | command _ _ _ hm | nop _ _ hm =>
    rw [if_neg (not_or.2 ⟨fun hr => TakesCommand.not_data hm (.inl hr), TakesCommand.not_continuation hm⟩)]
    rfl
  | dataWrite _ _ hm => rw [if_neg (by simp [hm])]; rfl
  | dataRead _ _ hm => rw [if_pos (.inl hm)]; rfl
  | continuation _ _ _ hm => rw [if_pos (.inr ⟨hm, rfl⟩)]; rfl

/-- Settles O49: the address in every cell of R180's table. -/
theorem spiAddressChangesOnlyByCommandContinuationOrReset :
    Obligations.SpiAddressChangesOnlyByCommandContinuationOrReset := by
  intro s t e he h
  obtain ⟨-, rfl⟩ | ⟨rest, ev, hn, hst⟩ := step_spi_nextEvent he h
  · exact ⟨e, he, .inl rfl⟩
  · cases hst with
    | select | deselect | malformed | nop | dataRead | dataWrite => exact ⟨_, rfl, .inl rfl⟩
    | reset => exact ⟨_, rfl, .inr (.inl ⟨hn, rfl⟩)⟩
    | command b mode hs hm hop =>
      have hne : b >>> 6 ≠ 1#8 := by
        rw [ne_eq, ← BitVec.toNat_inj, ← cmdOp_toNat]
        rcases hop with ⟨hop, -⟩ | ⟨hop, -⟩ | ⟨hop, -⟩ <;> simp [hop]
      exact ⟨_, rfl, .inr (.inr (.inl ⟨b, hn, hs, hm, hne, rfl⟩))⟩
    | continuation a n hs hm ha =>
      refine ⟨_, rfl, .inr (.inr (.inr ⟨hn, hs, hm, ?_⟩))⟩
      obtain ⟨hlt, -⟩ | ⟨h63, -⟩ | ⟨h63, -⟩ | ⟨h63, -⟩ := inc6_cases s.params s.draws e.address
      · cases (inc6_below hlt).symm.trans ha
        exact .inr (address_succ_toNat hlt)
      all_goals exact .inl h63

/-! ## From the table back to the step -/

/-- A byte taken as a command runs as the command, in either mode. -/
theorem selects_command (hs : e.sel = true) (hm : TakesCommand e b) :
    ∃ i, selectInstr (.spi e.sel e.mode) (.byteIn b) = .ok i ∧ exec i s = exec (decodeCommand b) s := by
  rw [hs]
  rcases hm with hm | ⟨hm, hb⟩ <;> rw [hm]
  · exact ⟨_, rfl, rfl⟩
  · exact ⟨.spiDataMreadExit b, by simp [selectInstr, selectSpiByte, hb], exec_exit_eq_command b⟩

/-- Every cell of R180's table is what the decoder gives and what the instruction does. -/
theorem SpiStep.selected (he : s.engine = .spi e) (h : SpiStep s e ev t) :
    ∃ i, selectInstr (.spi e.sel e.mode) ev = .ok i ∧ exec i s = .next t := by
  cases h with
  | select | deselect => exact ⟨_, rfl, onSpi_eq he⟩
  | reset => exact ⟨_, rfl, congrArg _ (State.afterReset_spi he)⟩
  | malformed b hs =>
    exact ⟨.spiXferBad b, by rw [hs]; rfl, (onSpi_eq he).trans (congrArg _ (raiseMalformed_spi he _))⟩
  | dataRead b hs hm => exact ⟨.spiDataRead b, by rw [hs, hm]; rfl, onSpi_eq he⟩
  | dataWrite b hs hm => exact ⟨.spiDataWrite b, by rw [hs, hm]; rfl, onSpi_eq he⟩
  | continuation a n hs hm ha => exact ⟨.spiDataMreadCont, by rw [hs, hm]; rfl, exec_spiDataMreadCont he ha⟩
  | nop b hs hm hop =>
    obtain ⟨i, hi, hx⟩ := selects_command (s := s) hs hm
    refine ⟨i, hi, hx.trans ?_⟩
    simpa [decodeCommand, hop] using exec_spiCmdNop01 he (cmdAddr b)
  | command b mode hs hm hop =>
    obtain ⟨i, hi, hx⟩ := selects_command (s := s) hs hm
    refine ⟨i, hi, hx.trans ?_⟩
    rcases hop with ⟨hop, rfl⟩ | ⟨hop, rfl⟩ | ⟨hop, rfl⟩
    · simpa [decodeCommand, hop] using exec_spiCmdWrite he (cmdAddr b)
    · simpa [decodeCommand, hop] using exec_spiCmdRead he (cmdAddr b)
    · simpa [decodeCommand, hop] using exec_spiCmdMread he (cmdAddr b)

theorem step_of_spiStep (he : s.engine = .spi e) (hev : s.events = w :: rest) (hw : Event.ofWord w = some ev)
    (h : SpiStep (s.setEvents rest) e ev t) : step s = .next t := by
  obtain ⟨i, hi, hx⟩ := SpiStep.selected (s := s.setEvents rest) he h
  have hd : decode s.context w = .ok i := decode_eq_ok_iff.2 ⟨ev, hw, by rw [State.context, he]; exact hi⟩
  exact (step_of_decode hev hd).trans hx

/-- The two engines after a step from standby with another address in the second: equal, or in standby and different in
the address alone. -/
def SameInStandby (a : SpiAddr) (g g' : Engine) : Prop :=
  g' = g ∨ ∃ f : SpiState, f.mode = .standby ∧ g = .spi f ∧ g' = .spi { f with address := a }

/-- In standby no cell of R180's table uses the address, and those that store one store the same. -/
theorem SpiStep.standby_other_address (hm : e.mode = .standby) (h : SpiStep s e ev t) (x : SpiAddr) (g : Engine) :
    ∃ u, SpiStep (s.setEngine g) { e with address := x } ev u ∧
      u.resp = t.resp ∧ u.regs = t.regs ∧ u.draws = t.draws ∧ u.events = t.events ∧
      SameInStandby x t.engine u.engine := by
  cases h with
  | select => exact ⟨_, .select, rfl, rfl, rfl, rfl, .inr ⟨_, rfl, rfl, rfl⟩⟩
  | deselect => exact ⟨_, .deselect, rfl, rfl, rfl, rfl, .inr ⟨_, rfl, rfl, rfl⟩⟩
  | reset => exact ⟨_, .reset, rfl, rfl, rfl, rfl, .inl rfl⟩
  | malformed b hs => exact ⟨_, .malformed b hs, rfl, rfl, rfl, rfl, .inr ⟨_, rfl, rfl, rfl⟩⟩
  | nop b hs _ hop => exact ⟨_, .nop b hs (.inl hm) hop, rfl, rfl, rfl, rfl, .inr ⟨_, rfl, rfl, rfl⟩⟩
  | command b mode hs _ hop => exact ⟨_, .command b mode hs (.inl hm) hop, rfl, rfl, rfl, rfl, .inl rfl⟩
  | dataRead _ _ hbad | continuation _ _ _ hbad | dataWrite _ _ hbad => simp [hm] at hbad

/-- Settles O50: the same cell of the table with the other address. -/
theorem spiAddressIsInvisibleInStandby : Obligations.SpiAddressIsInvisibleInStandby := by
  intro s t e a he hm h
  obtain ⟨hev, rfl⟩ | ⟨w, rest, ev, hev, hw, hst⟩ := step_spi_cases he h
  · exact ⟨_, step_of_no_event hev, rfl, rfl, rfl, rfl, .inr ⟨e, hm, he, rfl⟩⟩
  · obtain ⟨u, hu, hsame⟩ := hst.standby_other_address hm a (.spi { e with address := a })
    exact ⟨u, step_of_spiStep (s := s.setEngine (.spi { e with address := a })) rfl hev hw hu, hsame⟩

end Sys2Proof.Machine
end

section
/-! PROOFS. Runs of the I2C engine (30_encoding.md R92): the cells of the table as steps, and how runs are put
together. -/

namespace Sys2Proof.Machine

variable {s t u : State} {e : I2cState} {ev : Event} {rest : List EventWord} {n m : Nat} {rs rs' : List Response}

/-! ## From the table back to the step -/

/-- Every cell of R140's table is what the decoder gives and what the instruction does. -/
theorem I2cStep.selected (he : s.engine = .i2c e) (h : I2cStep s e ev t) :
    ∃ i, selectInstr (.i2c e.phase) ev = .ok i ∧ exec i s = .next t := by
  cases h with
  | startSend | startRecv | stop => exact ⟨_, rfl, onI2c_eq he⟩
  | reset => exact ⟨_, rfl, congrArg _ (State.afterReset_i2c he)⟩
  | pointer b hp => exact ⟨.i2cWbytePtr b, by rw [hp]; rfl, onI2c_eq he⟩
  | dataAtEnd b hp hend => exact ⟨.i2cWbyteData b, by rw [hp]; rfl, exec_i2cWbyteData_atEnd he hend b⟩
  | dataUndefined b hp hend hl =>
    exact ⟨.i2cWbyteData b, by rw [hp]; rfl, exec_i2cWbyteData_undefined he hend hl b⟩
  | dataDefined b r hp hend hl => exact ⟨.i2cWbyteData b, by rw [hp]; rfl, exec_i2cWbyteData_defined he hend hl b⟩
  | readAtEnd hp hend => exact ⟨.i2cRbyte, by rw [hp]; rfl, exec_i2cRbyte_atEnd he hend⟩
  | readUndefined hp hend hl => exact ⟨.i2cRbyte, by rw [hp]; rfl, exec_i2cRbyte_undefined he hend hl⟩
  | readDefined r hp hend hl => exact ⟨.i2cRbyte, by rw [hp]; rfl, exec_i2cRbyte_defined he hend hl⟩
  | malformedByte b hp =>
    refine ⟨.i2cWbyteBad b, ?_, (onI2c_eq he).trans (congrArg _ (raiseMalformed_i2c he _))⟩
    rcases hp with hp | hp <;> rw [hp] <;> rfl
  | malformedRequest hp =>
    refine ⟨.i2cRbyteBad, ?_, (onI2c_eq he).trans (congrArg _ (raiseMalformed_i2c he _))⟩
    rcases hp with hp | hp | hp <;> rw [hp] <;> rfl

theorem step_of_i2cStep (he : s.engine = .i2c e) (hev : s.events = ev.word :: rest)
    (h : I2cStep (s.setEvents rest) e ev t) : step s = .next t := by
  obtain ⟨i, hi, hx⟩ := I2cStep.selected (s := s.setEvents rest) he h
  exact (step_of_event hev (by rw [State.context, he]; exact hi)).trans hx

/-! ## Runs -/

theorem runTrace_cons (h : step s = .next t) (hrun : runTrace n t = some (rs, u)) :
    runTrace (n + 1) s = some (t.resp :: rs, u) := by simp [runTrace, h, hrun]

theorem runTrace_one (h : step s = .next t) : runTrace 1 s = some ([t.resp], t) := runTrace_cons h rfl

theorem runTrace_append (h : runTrace n s = some (rs, t)) (h' : runTrace m t = some (rs', u)) :
    runTrace (n + m) s = some (rs ++ rs', u) := by
  induction n generalizing s rs with
  | zero =>
    cases h
    rw [Nat.zero_add]
    exact h'
  | succ n ih =>
    obtain ⟨v, rs₁, hv, hrun, rfl⟩ := runTrace_succ h
    rw [Nat.succ_add]
    exact runTrace_cons hv (ih hrun)

end Sys2Proof.Machine
end

section
/-! PROOFS. The byte stream of 41_i2c_engine.md R150, and the reads that follow it. -/

namespace Sys2Proof.Machine

variable {s t : State} {e : I2cState} {rf : RegFile} {f d : Byte} {m n : Nat}
  {rest : List EventWord}

/-! ## The stream -/

theorem serialise_length (rf : RegFile) (f : Byte) (p : RegAddr) : (serialise rf f p).length = rf.widthAt p := by
  unfold serialise RegFile.widthAt
  cases rf.lookup p <;> simp

/-- The stream after the register at the pointer goes on where auto-increment leads. -/
theorem streamSegments_succ (hend : e.ptrEnd = false) (n : Nat) :
    streamSegments rf f (n + 1) e.ptr e.ptrEnd =
      serialise rf f e.ptr ++ streamSegments rf f n (advance rf e).ptr (advance rf e).ptrEnd := by
  cases h : rf.next e.ptr <;> simp [streamSegments, advance, ptrEndAfter, h, hend]

/-- More segments only add bytes behind. -/
theorem streamSegments_add (rf : RegFile) (f : Byte) (n k : Nat) (e : I2cState) :
    ∃ l, streamSegments rf f (n + k) e.ptr e.ptrEnd = streamSegments rf f n e.ptr e.ptrEnd ++ l := by
  induction n generalizing e with
  | zero => exact ⟨_, rfl⟩
  | succ n ih =>
    rw [Nat.succ_add]
    cases hend : e.ptrEnd with
    | true =>
      obtain ⟨l, hl⟩ := ih e
      rw [hend] at hl
      exact ⟨l, by simp only [streamSegments, hl, List.cons_append]⟩
    | false =>
      obtain ⟨l, hl⟩ := ih (advance rf e)
      refine ⟨l, ?_⟩
      rw [← hend, streamSegments_succ hend, streamSegments_succ hend, hl, List.append_assoc]

theorem le_length_streamSegments (hwf : rf.wf = true) (n : Nat) (e : I2cState) :
    n ≤ (streamSegments rf f n e.ptr e.ptrEnd).length := by
  induction n generalizing e with
  | zero => exact Nat.zero_le _
  | succ n ih =>
    cases hend : e.ptrEnd with
    | true =>
      have := hend ▸ ih e
      simp only [streamSegments, List.length_cons]
      omega
    | false =>
      have hpos := RegFile.widthAt_pos hwf e.ptr
      have := ih (advance rf e)
      rw [← hend, streamSegments_succ hend, List.length_append, serialise_length]
      omega

/-- What a read at the engine's position has to return: `n` bytes of `S(ptr, ptr_end)` from `cursor` on. -/
def streamAt (rf : RegFile) (f : Byte) (e : I2cState) (n : Nat) : List Byte :=
  streamBytes rf f e.ptr e.ptrEnd e.cursor.toNat n

/-- The stream may be read off any number of segments that is large enough. -/
theorem streamAt_eq_of_le (hwf : rf.wf = true) (h : e.cursor.toNat + n ≤ m) :
    streamAt rf f e n = ((streamSegments rf f m e.ptr e.ptrEnd).drop e.cursor.toNat).take n := by
  obtain ⟨k, rfl⟩ := Nat.exists_eq_add_of_le h
  obtain ⟨l, hl⟩ := streamSegments_add rf f (e.cursor.toNat + n) k e
  have hlen := le_length_streamSegments (f := f) hwf (e.cursor.toNat + n) e
  rw [hl, List.drop_append_of_le_length (by omega), List.take_append_of_le_length (by rw [List.length_drop]; omega)]
  rfl

theorem streamAt_zero (rf : RegFile) (f : Byte) (e : I2cState) : streamAt rf f e 0 = [] := by
  simp [streamAt, streamBytes]

/-- The exhausted stream is the filler for ever. -/
theorem streamAt_succ_atEnd (hend : e.ptrEnd = true) (hc : e.cursor = 0#2) (n : Nat) :
    streamAt rf f e (n + 1) = f :: streamAt rf f e n := by
  simp [streamAt, streamBytes, hend, hc, streamSegments]

/-- The first byte of the stream is byte `cursor` of the register at the pointer, and the rest is the stream of the
position after that byte. -/
theorem streamAt_succ_consume (hwf : rf.wf = true) (hend : e.ptrEnd = false)
    (hc : e.cursor.toNat < rf.widthAt e.ptr) (hd : (serialise rf f e.ptr)[e.cursor.toNat]? = some d) (n : Nat) :
    streamAt rf f e (n + 1) = d :: streamAt rf f (consumeByte rf (rf.widthAt e.ptr) e) n := by
  have hw := RegFile.widthAt_le hwf e.ptr
  have hlen := serialise_length rf f e.ptr
  obtain ⟨hi, hid⟩ := List.getElem?_eq_some_iff.1 hd
  have hsplit : streamAt rf f e (n + 1) =
      d :: ((streamSegments rf f (e.cursor.toNat + n + 1) e.ptr e.ptrEnd).drop (e.cursor.toNat + 1)).take n := by
    rw [streamAt_eq_of_le hwf (Nat.le_refl _), ← Nat.add_assoc, streamSegments_succ hend,
      List.drop_eq_getElem_cons (by rw [List.length_append]; omega), List.getElem_append_left hi, hid,
      List.take_succ_cons]
  rw [hsplit, List.cons.injEq]
  refine ⟨rfl, ?_⟩
  obtain ⟨hlt, h⟩ | ⟨heq, h⟩ := consumeByte_cases (rf := rf) hc hw <;> rw [h]
  case inl =>
    have hcur := cursor_succ hc hw
    rw [streamAt_eq_of_le (m := e.cursor.toNat + n + 1) hwf (by rw [hcur]; omega), hcur]
  case inr =>
    have hcur : (advance rf e).cursor = 0#2 := by
      obtain ⟨a, -, h⟩ | ⟨-, h⟩ := advance_cases rf e <;> rw [h]
    rw [streamSegments_succ hend, heq, ← hlen, List.drop_left,
      streamAt_eq_of_le (m := e.cursor.toNat + n) hwf (by simp [hcur]), hcur]
    rfl

/-! ## Reading along the stream -/

/-- Where a receive transaction stands: inside the register at the pointer, or exhausted with the cursor at 0. -/
def InsideRegister (rf : RegFile) (e : I2cState) : Prop :=
  e.cursor.toNat < rf.widthAt e.ptr ∧ (e.ptrEnd = true → e.cursor = 0#2)

theorem InsideRegister.of_cursor_zero (hwf : rf.wf = true) (hc : e.cursor = 0#2) : InsideRegister rf e :=
  ⟨hc ▸ RegFile.widthAt_pos hwf e.ptr, fun _ => hc⟩

theorem InsideRegister.consumeByte (hwf : rf.wf = true) (h : InsideRegister rf e) (hend : e.ptrEnd = false) :
    InsideRegister rf (consumeByte rf (rf.widthAt e.ptr) e) := by
  have hw := RegFile.widthAt_le hwf e.ptr
  obtain ⟨hlt, hc⟩ | ⟨-, hc⟩ := consumeByte_cases (rf := rf) h.1 hw <;> rw [hc]
  · exact ⟨by rw [cursor_succ h.1 hw]; exact hlt, by simp [hend]⟩
  · obtain ⟨a, -, ha⟩ | ⟨-, ha⟩ := advance_cases rf e <;> exact ha ▸ .of_cursor_zero hwf rfl

/-- A read request of an open receive transaction in `s`, with the engine `e`: what the next state has. -/
structure ReadDone (s : State) (rest : List EventWord) (t : State) (e' : I2cState) : Prop where
  regs_eq : t.regs = s.regs
  params_eq : t.params = s.params
  events_eq : t.events = rest
  engine_eq : t.engine = .i2c e'
  reading : e'.phase = .reading

/-- A read request answers the first byte of the stream and stands before the second. -/
theorem step_read (hwf : s.regs.wf = true) (he : s.engine = .i2c e) (hp : e.phase = .reading)
    (hin : InsideRegister s.regs e) (hev : s.events = Event.byteOutReq.word :: rest) :
    ∃ t e' d, step s = .next t ∧ t.resp = Response.data d ∧ ReadDone s rest t e' ∧ InsideRegister s.regs e' ∧
      ∀ n, streamAt s.regs s.params.i2cFiller e (n + 1) = d :: streamAt s.regs s.params.i2cFiller e' n := by
  have hphase : ∀ w, (consumeByte s.regs w e).phase = .reading := fun w => (consumeByte_frame _ w e).1.trans hp
  cases hend : e.ptrEnd with
  | true =>
    exact ⟨_, e, _, step_of_i2cStep he hev (.readAtEnd hp hend), rfl, ⟨rfl, rfl, rfl, he, hp⟩, hin,
      streamAt_succ_atEnd hend (hin.2 hend)⟩
  | false =>
    have hin' := hin.consumeByte hwf hend
    cases hl : s.regs.lookup e.ptr with
    | none =>
      have hw := RegFile.widthAt_of_undefined hl
      have hc : e.cursor.toNat = 0 := by have := hin.1; omega
      refine ⟨_, _, _, step_of_i2cStep he hev (.readUndefined hp hend hl), rfl, ⟨rfl, rfl, rfl, rfl, hphase 1⟩,
        hw ▸ hin', fun n => ?_⟩
      rw [streamAt_succ_consume hwf hend hin.1 (by simp [serialise, hl, hc]; rfl) n, hw]
      rfl
    | some r =>
      have hw := RegFile.widthAt_of_lookup hl
      have hc : e.cursor.toNat < r.desc.width := hw ▸ hin.1
      refine ⟨_, _, _, step_of_i2cStep he hev (.readDefined r hp hend hl), rfl, ⟨rfl, rfl, rfl, rfl, hphase _⟩,
        hw ▸ hin', fun n => ?_⟩
      rw [streamAt_succ_consume hwf hend hin.1 (by simp [serialise, hl, hc]; rfl) n, hw]
      rfl

/-- `n` read requests answer the first `n` bytes of the stream and stand where it goes on. -/
theorem run_reads (n : Nat) (hwf : s.regs.wf = true) (he : s.engine = .i2c e) (hp : e.phase = .reading)
    (hin : InsideRegister s.regs e) (hev : s.events = List.replicate n Event.byteOutReq.word ++ rest) :
    ∃ t e', runTrace n s = some ((streamAt s.regs s.params.i2cFiller e n).map Response.data, t) ∧
      ReadDone s rest t e' ∧ (streamAt s.regs s.params.i2cFiller e n).length = n ∧
      ∀ m, streamAt s.regs s.params.i2cFiller e (n + m) =
        streamAt s.regs s.params.i2cFiller e n ++ streamAt s.regs s.params.i2cFiller e' m := by
  induction n generalizing s e with
  | zero =>
    simp only [streamAt_zero, Nat.zero_add]
    exact ⟨s, e, rfl, ⟨rfl, rfl, hev, he, hp⟩, rfl, fun _ => rfl⟩
  | succ n ih =>
    obtain ⟨t, e₁, d, hstep, hresp, ht, hin', hstream⟩ := step_read hwf he hp hin hev
    obtain ⟨hr, hpar, hevt, het, hp'⟩ := ht
    rw [← hr] at hwf hin'
    obtain ⟨u, e₂, hrun, hu, hlen, hmore⟩ := ih hwf het hp' hin' hevt
    rw [hr, hpar] at hrun hlen hmore
    refine ⟨u, e₂, ?_, ⟨hu.regs_eq.trans hr, hu.params_eq.trans hpar, hu.events_eq, hu.engine_eq, hu.reading⟩, ?_,
      fun m => ?_⟩
    · rw [hstream, List.map_cons, ← hresp]
      exact runTrace_cons hstep hrun
    · rw [hstream, List.length_cons, hlen]
    · rw [Nat.succ_add, hstream, hstream, hmore, List.cons_append]

end Sys2Proof.Machine
end

section
/-! PROOFS. The I2C transactions (30_encoding.md R92, 41_i2c_engine.md R150, R151). -/

namespace Sys2Proof.Machine

variable {s t : State} {e : I2cState} {rf : RegFile} {a : RegAddr} {r : Register} {rest : List EventWord}

/-! ## Reads -/

/-- Settles O51: the start leaves the pointer and puts the cursor at 0, and the requests follow the stream. -/
theorem i2cReadBurstIsTheRegisterStream : Obligations.I2cReadBurstIsTheRegisterStream := by
  intro s e n rest hwf he hev
  have hstart := step_of_i2cStep he hev .startRecv
  obtain ⟨t, e', hrun, ht, hlen, hmore⟩ :=
    run_reads (rest := rest) n
      (s := ((s.setEvents (List.replicate n Event.byteOutReq.word ++ rest)).setI2c
        { e with cursor := 0#2, phase := .reading }).answer Response.silent)
      hwf rfl rfl (.of_cursor_zero hwf rfl) rfl
  exact ⟨t, e', runTrace_cons hstart hrun, ht.regs_eq, ht.events_eq, ht.engine_eq, ht.reading, hlen, hmore⟩

/-- A send transaction is opened, and its first byte is the pointer. -/
theorem run_sendPointer (he : s.engine = .i2c e) (a : Byte)
    (hev : s.events = Event.start.word :: (Event.byteIn a).word :: rest) :
    ∃ t, runTrace 2 s = some ([Response.silent, Response.accepted], t) ∧ t.regs = s.regs ∧ t.params = s.params ∧
      t.events = rest ∧ t.engine = .i2c { ptr := a, ptrEnd := false, cursor := 0#2, phase := .writing } := by
  have hstart := step_of_i2cStep he hev .startSend
  have hrun := runTrace_cons hstart (runTrace_one (step_of_i2cStep (rest := rest) rfl rfl (.pointer a rfl)))
  exact ⟨_, hrun, rfl, rfl, rfl, rfl⟩

/-- The pointer is set, and the transaction ended. -/
theorem run_i2cSetptr (he : s.engine = .i2c e) (a : Byte) (hev : s.events = i2cSetptr a ++ rest) :
    ∃ t, runTrace 3 s = some ([Response.silent, Response.accepted, Response.silent], t) ∧ t.regs = s.regs ∧
      t.params = s.params ∧ t.events = rest ∧
      t.engine = .i2c { ptr := a, ptrEnd := false, cursor := 0#2, phase := .idle } := by
  obtain ⟨t, hsend, hregs, hparams, hevents, hengine⟩ := run_sendPointer he a hev
  have hstop := step_of_i2cStep (rest := rest) hengine hevents .stop
  exact ⟨_, runTrace_append hsend (runTrace_one hstop), hregs, hparams, rfl, rfl⟩

/-- Settles O52: the pointer is set, the burst follows the stream from it, and the stop ends the transaction. -/
theorem i2cReadatReadsFromTheGivenAddress : Obligations.I2cReadatReadsFromTheGivenAddress := by
  intro s e a n rest hwf he hev
  obtain ⟨t, hset, hregs, hparams, hevents, hengine⟩ :=
    run_i2cSetptr (rest := i2cRead n ++ rest) he a (by rw [hev, i2cReadat, List.append_assoc])
  have hread : t.events =
      Event.startRecv.word :: (List.replicate n Event.byteOutReq.word ++ Event.stop.word :: rest) := by
    simp [hevents, i2cRead]
  obtain ⟨u, e', hburst, huregs, huevents, huengine, -⟩ :=
    i2cReadBurstIsTheRegisterStream t _ n _ (hregs ▸ hwf) hengine hread
  have hstop := step_of_i2cStep huengine huevents .stop
  have hrun := runTrace_append (runTrace_append hset hburst) (runTrace_one hstop)
  have hlen : 3 + (n + 1) + 1 = n + 5 := by omega
  rw [hlen, hregs, hparams] at hrun
  refine ⟨_, _, hrun, ?_, ?_, huregs.trans hregs, rfl⟩
  · simp [List.filterMap_cons, List.filterMap_map]
  · simp [or_imp, forall_and]

/-! ## Writes -/

/-- The bus bytes of a register, in bus order. -/
def busBytes (r : Register) (n : Nat) : List Byte :=
  (List.range n).map (fun k => byteOf r.value r.desc.width r.desc.order k)

/-- Writing the byte after the first `k` bus bytes of a read-write register leaves those, with the byte behind. -/
theorem ByteWritten.busBytes {k : Nat} {b : Byte} {r' : Register} (h : ByteWritten r k b r')
    (hrw : r.desc.access = .rw) (hk : k < r.desc.width) : busBytes r' (k + 1) = busBytes r k ++ [b] := by
  have hbyte := h.replaced_of_rw hrw
  simp only [Machine.busBytes, h.desc_eq, List.range_succ, List.map_append, List.map_singleton, hbyte k hk, if_true]
  refine congrArg (· ++ [b]) (List.map_congr_left fun j hj => ?_)
  have hjk : j < k := List.mem_range.1 hj
  rw [hbyte j (by omega), if_neg (by omega)]

theorem advance_congr {rf' : RegFile} (hm : rf.regMap = rf'.regMap) : advance rf e = advance rf' e := by
  simp only [advance, RegFile.next_congr hm]

/-- What the state has after the bytes `bs` were written to the register `r` at the pointer of `e`, from the cursor on:
the bus bytes before the cursor and then `bs` in that register, now `r'`, and no other register changed. -/
structure BytesWritten (s : State) (e : I2cState) (r : Register) (bs : List Byte) (t : State) (r' : Register) :
    Prop where
  written : t.regs.lookup e.ptr = some r'
  desc_eq : r'.desc = r.desc
  bytes_eq : busBytes r' (e.cursor.toNat + bs.length) = busBytes r e.cursor.toNat ++ bs
  others_kept : ∀ a, a ≠ e.ptr → t.regs.lookup a = s.regs.lookup a
  map_eq : t.regs.regMap = s.regs.regMap
  wf : t.regs.wf = true

/-- A data byte of an open send transaction at a read-write register. -/
theorem step_write {b : Byte} (hwf : s.regs.wf = true) (he : s.engine = .i2c e) (hp : e.phase = .writing)
    (hend : e.ptrEnd = false) (hl : s.regs.lookup e.ptr = some r) (hrw : r.desc.access = .rw)
    (hc : e.cursor.toNat < r.desc.width) (hev : s.events = (Event.byteIn b).word :: rest) :
    ∃ t r', step s = .next t ∧ t.resp = Response.accepted ∧ t.events = rest ∧
      t.engine = .i2c (consumeByte s.regs r.desc.width e) ∧ BytesWritten s e r [b] t r' := by
  obtain ⟨r', hl', hr'⟩ := RegFile.lookup_write_byte hwf hl hc b
  exact ⟨_, r', step_of_i2cStep he hev (.dataDefined b r hp hend hl), rfl, rfl, rfl, hl', hr'.desc_eq,
    hr'.busBytes hrw hc, fun a ha => RegFile.lookup_write_other _ ha, RegFile.write_regMap _, RegFile.write_wf _ hwf⟩

/-- As many data bytes as are left of a read-write register are accepted and fill it, and the pointer moves on. -/
theorem run_writes {bs : List Byte} (hwf : s.regs.wf = true) (he : s.engine = .i2c e) (hp : e.phase = .writing)
    (hend : e.ptrEnd = false) (hl : s.regs.lookup e.ptr = some r) (hrw : r.desc.access = .rw)
    (hc : e.cursor.toNat < r.desc.width) (hlen : e.cursor.toNat + bs.length = r.desc.width)
    (hev : s.events = bs.map (fun b => (Event.byteIn b).word) ++ rest) :
    ∃ t r', runTrace bs.length s = some (List.replicate bs.length Response.accepted, t) ∧ t.events = rest ∧
      t.engine = .i2c (advance s.regs e) ∧ BytesWritten s e r bs t r' := by
  induction bs generalizing s e r with
  | nil => simp at hlen; omega
  | cons b bs ih =>
    obtain ⟨t, r₁, hstep, hresp, htev, hte, ht⟩ := step_write hwf he hp hend hl hrw hc hev
    have hw := (RegFile.width_bounds hwf (RegFile.mem_of_lookup hl)).2
    rw [List.length_cons] at hlen ⊢
    obtain ⟨hlt, hcons⟩ | ⟨heq, hcons⟩ := consumeByte_cases (rf := s.regs) hc hw <;> rw [hcons] at hte
    case inl =>
      have hcur := cursor_succ hc hw
      obtain ⟨u, r', hrun, huev, hue, hu⟩ := ih ht.wf hte hp hend ht.written (ht.desc_eq ▸ hrw)
        (by rw [ht.desc_eq]; exact hcur ▸ hlt) (by rw [ht.desc_eq, hcur]; omega) htev
      have hfirst : busBytes r₁ (e.cursor.toNat + 1) = busBytes r e.cursor.toNat ++ [b] := ht.bytes_eq
      have hrest : busBytes r' (e.cursor.toNat + 1 + bs.length) = busBytes r₁ (e.cursor.toNat + 1) ++ bs :=
        hcur ▸ hu.bytes_eq
      have hall := runTrace_cons hstep hrun
      rw [hresp] at hall
      refine ⟨u, r', hall, huev, ?_, hu.written, hu.desc_eq.trans ht.desc_eq, ?_,
        fun a ha => (hu.others_kept a ha).trans (ht.others_kept a ha), hu.map_eq.trans ht.map_eq, hu.wf⟩
      · rw [hue, advance_cursor, advance_congr ht.map_eq]
      · rw [List.length_cons, Nat.add_comm bs.length, ← Nat.add_assoc, hrest, hfirst, List.append_assoc]
        rfl
    case inr =>
      obtain rfl : bs = [] := List.eq_nil_of_length_eq_zero (by omega)
      exact ⟨t, r₁, hresp ▸ runTrace_one hstep, htev, hte, ht⟩

/-- Where auto-increment leaves the engine, as a stop then finds it. -/
theorem stop_advance (hend : e.ptrEnd = false) :
    { advance rf e with cursor := 0#2, phase := .idle } =
      ({ ptr := (rf.next e.ptr).getD e.ptr, ptrEnd := (rf.next e.ptr).isNone, cursor := 0#2, phase := .idle } :
        I2cState) := by
  cases h : rf.next e.ptr <;> simp [advance, h, hend, ptrEndAfter]

/-- Settles O53: the pointer is set, the bytes fill the register, and the stop ends the transaction. -/
theorem i2cWriteTransactionFillsTheRegister : Obligations.I2cWriteTransactionFillsTheRegister := by
  intro s e a r bs rest hwf he hl hrw hlen hev
  have hpos := (RegFile.width_bounds hwf (RegFile.mem_of_lookup hl)).1
  obtain ⟨t, hsend, hregs, -, hevents, hengine⟩ :=
    run_sendPointer (rest := bs.map (fun b => (Event.byteIn b).word) ++ Event.stop.word :: rest) he a
      (by simp [hev, i2cWrite])
  rw [← hregs] at hwf hl ⊢
  obtain ⟨u, r', hrun, huev, hue, hu⟩ := run_writes hwf hengine rfl rfl hl hrw hpos (by simpa using hlen) hevents
  have hstop := step_of_i2cStep hue huev .stop
  have hall := runTrace_append (runTrace_append hsend hrun) (runTrace_one hstop)
  have hcount : 2 + bs.length + 1 = bs.length + 3 := by omega
  rw [hcount] at hall
  have hbytes : busBytes r' r.desc.width = bs := by
    have := hu.bytes_eq
    rwa [show (0#2).toNat + bs.length = r.desc.width by simpa using hlen] at this
  simp only [busBytes, hu.desc_eq] at hbytes
  exact ⟨_, r', hall, rfl, hu.written, hu.desc_eq, hbytes, hu.others_kept,
    congrArg Engine.i2c (stop_advance (rf := t.regs) (e := ⟨a, false, 0#2, .writing⟩) rfl)⟩

end Sys2Proof.Machine
end

section
/-! PROOFS. The SPI transactions (30_encoding.md R92, 42_spi_engine.md R195). -/

namespace Sys2Proof.Machine

variable {s t : State} {e : SpiState} {rest : List EventWord}

/-! ## The bytes of the transactions -/

theorem writeByte_eq (a : SpiAddr) : 0x00#8 ||| a.setWidth 8 = cmdByte 0#2 a := (cmdByte_eq_or 0#2 a).symm

theorem readByte_eq (a : SpiAddr) : 0x80#8 ||| a.setWidth 8 = cmdByte 2#2 a := (cmdByte_eq_or 2#2 a).symm

theorem multiReadByte_eq (a : SpiAddr) : 0xC0#8 ||| a.setWidth 8 = cmdByte 3#2 a := (cmdByte_eq_or 3#2 a).symm

/-! ## The steps of the transactions -/

theorem step_spiRead_command {a : SpiAddr} (he : s.engine = .spi e) (hs : e.sel = true) (hm : e.mode = .standby)
    (hev : s.events = (Event.byteIn (0x80#8 ||| a.setWidth 8)).word :: rest) :
    step s = .next (enterCommand (s.setEvents rest) e .read a) := by
  rw [step_of_command_byte he hs (.inl hm) (by simp [hm]) hev, readByte_eq]
  simpa [decodeCommand] using exec_spiCmdRead (s := s.setEvents rest) he a

theorem step_spiWrite_command {a : SpiAddr} (he : s.engine = .spi e) (hs : e.sel = true) (hm : e.mode = .standby)
    (hev : s.events = (Event.byteIn (0x00#8 ||| a.setWidth 8)).word :: rest) :
    step s = .next (enterCommand (s.setEvents rest) e .write a) := by
  rw [step_of_command_byte he hs (.inl hm) (by simp [hm]) hev, writeByte_eq]
  simpa [decodeCommand] using exec_spiCmdWrite (s := s.setEvents rest) he a

/-- The command of a multi-read is never the continuation byte, so it is met in multi-read too. -/
theorem step_spiMultiRead_command {a : SpiAddr} (he : s.engine = .spi e) (hs : e.sel = true)
    (hm : e.mode = .standby ∨ e.mode = .multiRead)
    (hev : s.events = (Event.byteIn (0xC0#8 ||| a.setWidth 8)).word :: rest) :
    step s = .next (enterCommand (s.setEvents rest) e .multiRead a) := by
  have hne : 0xC0#8 ||| a.setWidth 8 ≠ spiCont := by simp [multiReadByte_eq, cmdByte_eq_spiCont_iff]
  rw [step_of_command_byte he hs hm (fun _ => hne) hev, multiReadByte_eq]
  simpa [decodeCommand] using exec_spiCmdMread (s := s.setEvents rest) he a

theorem step_spiContinuation (he : s.engine = .spi e) (hs : e.sel = true) (hm : e.mode = .multiRead)
    (ha : e.address.toNat < 63) (hev : s.events = (Event.byteIn spiCont).word :: rest) :
    step s = .next (((s.setEvents rest).setSpi { e with address := e.address + 1#6 }).answer
      (Response.data (spiRead s.regs e.address))) :=
  step_of_spiStep he hev (Event.ofWord_word _) (.continuation _ _ hs hm (inc6_below ha))

/-! ## Multi-read -/

/-- Settles O54: by induction on the number of continuations, the last one peeled off. -/
theorem spiMultiReadStreamsConsecutiveAddresses : Obligations.SpiMultiReadStreamsConsecutiveAddresses := by
  intro s e a n rest he hs hm hev hn
  induction n generalizing rest with
  | zero =>
    have hstep := step_spiMultiRead_command he hs hm hev
    have ha : BitVec.ofNat 6 (a.toNat + 0) = a := by simp
    rw [ha]
    exact runTrace_one hstep
  | succ n ih =>
    have hsplit : s.events = spiMrd a n ++ (Event.byteIn spiCont).word :: rest := by
      rw [hev, spiMrd, List.replicate_succ', spiMrd, List.cons_append, List.cons_append, List.append_assoc]
      rfl
    have hrun := ih _ hsplit (by omega)
    have haddr : (BitVec.ofNat 6 (a.toNat + n)).toNat = a.toNat + n := by
      rw [BitVec.toNat_ofNat]
      exact Nat.mod_eq_of_lt (show _ < 64 by omega)
    have hstep := step_spiContinuation (rest := rest) (s := { s with
      engine := .spi { e with mode := .multiRead, address := BitVec.ofNat 6 (a.toNat + n) }
      events := (Event.byteIn spiCont).word :: rest
      resp := ⟨some (if n = 0 then 0x00#8 else spiRead s.regs (BitVec.ofNat 6 (a.toNat + n - 1))), none, false⟩ })
      rfl hs rfl (by rw [haddr]; omega) rfl
    have hall := runTrace_append hrun (runTrace_one hstep)
    rw [← BitVec.ofNat_add] at hall
    rw [List.range_succ, List.map_append, if_neg (Nat.succ_ne_zero n), ← Nat.add_assoc a.toNat n 1, Nat.add_sub_cancel]
    exact hall

/-! ## Write, then read -/

/-- Settles O55: four steps; the write path decides what the read answers. -/
theorem spiWriteThenReadReturnsTheByte : Obligations.SpiWriteThenReadReturnsTheByte := by
  intro s e a bb xx rest hwf he hs hm hev
  have hwrite := step_spiWrite_command he hs hm hev
  have hrun := runTrace_cons hwrite <|
    runTrace_cons (step_of_spiStep (rest := spiRd a xx ++ rest) rfl rfl (Event.ofWord_word (.byteIn bb))
      (.dataWrite bb hs rfl)) <|
    runTrace_cons (step_spiRead_command (a := a) (rest := (Event.byteIn xx).word :: rest) rfl hs rfl rfl) <|
    runTrace_one (step_of_spiStep (rest := rest) rfl rfl (Event.ofWord_word (.byteIn xx)) (.dataRead xx hs rfl))
  refine ⟨_, _, hrun, rfl, rfl, fun r hl hrw => ?readWrite, fun hno => ?kept⟩
  case readWrite =>
    have hl' := RegFile.lookup_write_zeroExtended hwf hl hrw bb
    refine (spiRead_of_lookup hl').trans ?_
    simp
  case kept =>
    have hregs : s.regs.write (spiRegAddr a) bb.toNat = s.regs := by
      rcases hno with hl | ⟨r, hl, hro⟩
      · exact RegFile.write_of_undefined (RegFile.lookup_eq_none_iff.1 hl) _
      · exact RegFile.write_of_lookup_ro hwf hl hro _
    exact ⟨congrArg (spiRead · a) hregs, hregs⟩

end Sys2Proof.Machine
end
